-- ==== Sys2Proof/Word.lean ====
section
/-! DEFINITION. The value types of FFXE: host words, bytes, cipher blocks, and the bit and byte strings of the datapath. -/

namespace Sys2Proof

/-- A host word, 32 bits, bit 0 the least significant (R16). -/
abbrev Word := BitVec 32

/-- A byte (R16). -/
abbrev Byte := BitVec 8

/-- A value of the fixed-width type `Bits 128` (a key, a tweak, a cipher block: R7, R8). Buffer bit 0 is the most significant bit (R15). -/
abbrev Block := BitVec 128

/-- A bit buffer: the sequence `X_0 X_1 …`, its length part of the value (R15, R100). -/
abbrev Bits := List Bool

/-- A byte string, byte 0 first (R16). -/
abbrev Bytes := List Byte

end Sys2Proof
end

