-- ==== Sys2Proof/Config.lean ====
section
/-! DEFINITION. What one FFXE implementation fixes: the parameters of R11 to R14, the values the spec leaves open, and the constants of R7 to R10. -/

namespace Sys2Proof

/-- The parameters of one FFXE. Every operation that depends on one takes the record as an argument, so that a claim about
an operation can be made for every cipher, padding and length bound (R12; 92_eei_decisions.md D6). -/
structure Config where
  /-- `KMAX`, the index of the largest registrable length. `NMAX = 88 + 8·KMAX` (R29), so `Fin 16` is exactly the constraint of R11. -/
  kmax : Fin 16
  /-- `BASE`, the physical address of the register window (R14). -/
  base : Nat
  /-- `E`, the block cipher in its forward direction: key, block; `none` is `FAIL` (R12). -/
  cipher : Block → Block → Option Block
  /-- How many whole blocks `PAD` appends beyond the fewest that make at least one whole block (R13). -/
  padExtra : Bytes → Nat
  /-- Byte `j` of what `PAD` appends to a byte string (R13). -/
  padByte : Bytes → Nat → Byte
  /-- Free value: what `PS_SPLIT` returns outside its precondition (R140). -/
  splitUnstated : Nat → Nat
  /-- Free value: what `PS_REM` returns outside its precondition (R141). -/
  remUnstated : Nat → Nat
  /-- Free value: what `PS_ROUNDS` returns outside its precondition (R142). -/
  roundsUnstated : Nat → Nat
  /-- Free value: what `RM_CBC` returns for a byte string that is no whole number of blocks (R122): key, tweak, string; `none` is `FAIL`. -/
  cbcUnstated : Block → Block → Bytes → Option Bytes
  deriving Inhabited

namespace Config

/-- The parameters of the machine modelled: left open by the spec, so nothing in Lean can say what they are. -/
opaque platform : Config

/-- `REM = 80` (R9). -/
abbrev REM : Nat := 80

/-- `MINLEN = 88` (R9). -/
abbrev MINLEN : Nat := 88

/-- `ROUNDFACTOR = 4` (R10). -/
abbrev ROUNDFACTOR : Nat := 4

/-- `KEYBITS = 128` (R7). -/
abbrev KEYBITS : Nat := 128

/-- `BLOCKBITS = TWEAKBITS = 128` (R8). -/
abbrev BLOCKBITS : Nat := 128

/-- `NMAX`, the largest message length accepted (R11, R29). -/
def nmax (C : Config) : Nat := MINLEN + 8 * C.kmax.val

end Config

end Sys2Proof
end

