-- ==== Sys2Proof/Syntax.lean ====
section
/-! DEFINITION. The instructions of FFXE: one constructor for each row of the opcode table. -/

namespace Sys2Proof

/-- The operations of FFXE. The first seven reach it through its register port (R70 to R72, R212, R213); the others are
internal, have no host encoding, and carry their operands (R101 to R188). -/
inductive Instr where
  /-- LOADKEY, the command word `0x00000001` (R203, R204). -/
  | loadkey
  /-- REGLEN, the command word `0x00000002` (R205). -/
  | reglen
  /-- ENC, the command word `0x00000003` (R208). -/
  | enc
  /-- DEC, the command word `0x00000004` (R209). -/
  | dec
  /-- ILLEGAL, any other command word (R72, R202). -/
  | illegal (w : Word)
  /-- RD, a read transaction: offset and access size in bytes (R212). -/
  | rd (off : BitVec 8) (size : Nat)
  /-- WR, a write transaction: offset, access size in bytes, data word (R213). The data of an access of another width is not carried: no rule reads it. -/
  | wr (off : BitVec 8) (size : Nat) (v : Word)
  /-- BB_SLICE (R101). -/
  | bbSlice (X : Bits) (lo hi : Nat)
  /-- BB_CONCAT (R102). -/
  | bbConcat (X Y : Bits)
  /-- BB_XOR (R103). -/
  | bbXor (X Y : Bits)
  /-- BB_TOBYTES (R104). -/
  | bbTobytes (X : Bits)
  /-- BB_FROMBYTES (R105). -/
  | bbFrombytes (b : Bytes) (L : Nat)
  /-- RM_PAD (R121). -/
  | rmPad (H : Bits)
  /-- RM_CBC (R122). -/
  | rmCbc (T : Block) (P : Bytes)
  /-- RM_MASK (R124). -/
  | rmMask (T : Block) (H : Bits) (m : Nat)
  /-- PS_SPLIT (R140). -/
  | psSplit (n : Nat)
  /-- PS_REM (R141). -/
  | psRem (n : Nat)
  /-- PS_ROUNDS (R142). -/
  | psRounds (n : Nat)
  /-- PS_VALID (R143). -/
  | psValid (n : Nat)
  /-- LR_REGISTER (R161). -/
  | lrRegister (n : Nat)
  /-- LR_ENSURE (R162). -/
  | lrEnsure (n : Nat)
  /-- FE_ROUND_ENC (R180). -/
  | feRoundEnc (X : Bits) (T : Block)
  /-- FE_ROUND_DEC (R181). -/
  | feRoundDec (Y : Bits) (T : Block)
  /-- FE_ENCRYPT (R183). -/
  | feEncrypt (T : Block) (X : Bits)
  /-- FE_DECRYPT (R184). -/
  | feDecrypt (T : Block) (Y : Bits)
  /-- SEQ_STEP_ENC (R187). -/
  | seqStepEnc
  /-- SEQ_STEP_DEC (R188). -/
  | seqStepDec
  deriving DecidableEq, Repr

end Sys2Proof
end

