-- ==== Sys2Proof/WellFormed.lean ====
section
/-! DEFINITION. Which instructions are well formed: the checks the opcode table and the operand lines of the rules make. -/

namespace Sys2Proof

/-- The four legal command words (R71). -/
def legalCommandWord (w : Word) : Bool :=
  w == 0x00000001 || w == 0x00000002 || w == 0x00000003 || w == 0x00000004

/-- A message length some FFXE could accept: `PS_VALID` (R143) at the largest `NMAX` (R11). -/
def lengthForm (n : Nat) : Bool :=
  n % 8 == 0 && decide (Config.MINLEN ≤ n) && decide (n ≤ 208)

/-- Is the operation one of those a host can issue, rather than an internal one (opcode table, `format`)? -/
def Instr.isHost : Instr → Bool
  | .loadkey | .reglen | .enc | .dec | .illegal _ | .rd _ _ | .wr _ _ _ => true
  | .bbSlice _ _ _ | .bbConcat _ _ | .bbXor _ _ | .bbTobytes _ | .bbFrombytes _ _ => false
  | .rmPad _ | .rmCbc _ _ | .rmMask _ _ _ => false
  | .psSplit _ | .psRem _ | .psRounds _ | .psValid _ | .lrRegister _ | .lrEnsure _ => false
  | .feRoundEnc _ _ | .feRoundDec _ _ | .feEncrypt _ _ | .feDecrypt _ _ => false
  | .seqStepEnc | .seqStepDec => false

/-- Well-formedness. ILLEGAL's word is none of the legal ones (R72). A 32-bit write to `CMD` is a command, not a WR (R213).
RM_CBC's string is whole blocks (R122), and the operand of a parameter or Feistel operation is a message length (R140 to R142, R180 to R184). -/
def Instr.wf : Instr → Bool
  | .illegal w => !legalCommandWord w
  | .wr off size _ => !(off == 0x00 && size == 4)
  | .rmCbc _ P => P.length % 16 == 0
  | .psSplit n | .psRem n | .psRounds n => lengthForm n
  | .feRoundEnc X _ | .feRoundDec X _ | .feEncrypt _ X | .feDecrypt _ X => lengthForm X.length
  | .loadkey | .reglen | .enc | .dec | .rd _ _ => true
  | .bbSlice _ _ _ | .bbConcat _ _ | .bbXor _ _ | .bbTobytes _ | .bbFrombytes _ _ => true
  | .rmPad _ | .rmMask _ _ _ | .psValid _ | .lrRegister _ | .lrEnsure _ => true
  | .seqStepEnc | .seqStepDec => true

end Sys2Proof
end

