-- ==== Sys2Proof/Decode.lean ====
section
/-! DEFINITION. From a bus transaction to an instruction and back: the window, the command word, and the encoder. -/

namespace Sys2Proof

/-- The direction of an access (R51). -/
inductive Dir where
  | read
  | write
  deriving DecidableEq, Repr

/-- One host access to the register window: direction, byte offset, size in bytes, and the data word of a write (R50, R51). -/
structure Access where
  dir  : Dir
  off  : BitVec 8
  size : Nat
  data : Word
  deriving DecidableEq, Repr

/-- Why a bus address is not decoded. -/
inductive Rejection where
  /-- The address is not in the 256-byte window at `BASE` (R50): the access is not one of FFXE's. -/
  | outsideWindow (addr : Nat)
  deriving DecidableEq, Repr

/-- The window offset of a physical address (R50): `BASE + off`, rejected by name outside the window. -/
def route (C : Config) (addr : Nat) : Except Rejection (BitVec 8) :=
  if C.base ≤ addr ∧ addr < C.base + 256 then .ok (BitVec.ofNat 8 (addr - C.base)) else .error (.outsideWindow addr)

/-- The command a word written to `CMD` encodes (R70 to R72): every word is one. -/
def decodeWord (w : Word) : Instr :=
  if w = 0x00000001 then .loadkey
  else if w = 0x00000002 then .reglen
  else if w = 0x00000003 then .enc
  else if w = 0x00000004 then .dec
  else .illegal w

/-- The instruction an access to the window is: a 32-bit write to `CMD` (offset 0) is a command word (R70), every other access an
RD or a WR, whatever its width and offset (R76, R212, R213). -/
def decode (a : Access) : Instr :=
  match a.dir with
  | .read => .rd a.off a.size
  | .write => if a.off = 0x00 ∧ a.size = 4 then decodeWord a.data else .wr a.off a.size a.data

/-- The instruction a transaction at a physical address is: first the window (R50), then the access. -/
def decodeBus (C : Config) (dir : Dir) (addr size : Nat) (data : Word) : Except Rejection Instr :=
  match route C addr with
  | .ok off => .ok (decode ⟨dir, off, size, data⟩)
  | .error r => .error r

/-- The access that writes a command word to `CMD`. -/
def cmdWrite (w : Word) : Access := ⟨.write, 0x00, 4, w⟩

/-- The access that encodes an instruction (R71, R77). An internal operation has no host encoding (opcode table, format `internal`). -/
def encode : Instr → Option Access
  | .loadkey => some (cmdWrite 0x00000001)
  | .reglen => some (cmdWrite 0x00000002)
  | .enc => some (cmdWrite 0x00000003)
  | .dec => some (cmdWrite 0x00000004)
  | .illegal w => some (cmdWrite w)
  | .rd off size => some ⟨.read, off, size, 0⟩
  | .wr off size v => some ⟨.write, off, size, v⟩
  | .bbSlice _ _ _ | .bbConcat _ _ | .bbXor _ _ | .bbTobytes _ | .bbFrombytes _ _ => none
  | .rmPad _ | .rmCbc _ _ | .rmMask _ _ _ => none
  | .psSplit _ | .psRem _ | .psRounds _ | .psValid _ | .lrRegister _ | .lrEnsure _ => none
  | .feRoundEnc _ _ | .feRoundDec _ _ | .feEncrypt _ _ | .feDecrypt _ _ => none
  | .seqStepEnc | .seqStepDec => none

/-- The command a table row's bits are: one 32-bit word written to `CMD`. A wider write is no command (R76). -/
def decodeTableWord (nbits w : Nat) : Option Instr :=
  if nbits ≤ 32 ∧ w < 2 ^ 32 then some (decode (cmdWrite (BitVec.ofNat 32 w))) else none

end Sys2Proof
end

