-- ==== Sys2Proof/Machine/Bytes.lean ====
section
/-! DEFINITION. A cipher block and its bytes, most significant first (R53). -/

namespace Sys2Proof.Machine

/-- The bytes of a block, most significant first (R53). -/
def blockBytes (b : Block) : Bytes := (List.range 16).map fun j => b.extractLsb' (120 - 8 * j) 8

/-- The block whose bytes are the first 16 of a string (R53). -/
def bytesBlock (b : Bytes) : Block :=
  BitVec.ofNat 128 ((b.take 16).foldl (fun acc x => 256 * acc + x.toNat) 0)

end Sys2Proof.Machine
end

