-- ==== Sys2Proof/Machine/Cipher.lean ====
section
/-! DEFINITION. The default parameters of the spec: AES-128 as the cipher (R12), PKCS#7 as the padding (R13), `NMAX = 208` (R11). The
machine does not rest on them: its own parameters are `Machine.config`. -/

namespace Sys2Proof.Machine

/-- Row `r` of the AES S-box, 16 bytes, first byte most significant (FIPS-197). -/
def sboxRow : Nat → Nat
  | 0 => 0x637c777bf26b6fc53001672bfed7ab76
  | 1 => 0xca82c97dfa5947f0add4a2af9ca472c0
  | 2 => 0xb7fd9326363ff7cc34a5e5f171d83115
  | 3 => 0x04c723c31896059a071280e2eb27b275
  | 4 => 0x09832c1a1b6e5aa0523bd6b329e32f84
  | 5 => 0x53d100ed20fcb15b6acbbe394a4c58cf
  | 6 => 0xd0efaafb434d338545f9027f503c9fa8
  | 7 => 0x51a3408f929d38f5bcb6da2110fff3d2
  | 8 => 0xcd0c13ec5f974417c4a77e3d645d1973
  | 9 => 0x60814fdc222a908846eeb814de5e0bdb
  | 10 => 0xe0323a0a4906245cc2d3ac629195e479
  | 11 => 0xe7c8376d8dd54ea96c56f4ea657aae08
  | 12 => 0xba78252e1ca6b4c6e8dd741f4bbd8b8a
  | 13 => 0x703eb5664803f60e613557b986c11d9e
  | 14 => 0xe1f8981169d98e949b1e87e9ce5528df
  | _ => 0x8ca1890dbfe6426841992d0fb054bb16

/-- SubBytes on one byte. -/
def subByte (x : Nat) : Nat := (sboxRow (x / 16) >>> (8 * (15 - x % 16))) % 256

/-- Multiplication by `x` in the AES field. -/
def xtime (x : Nat) : Nat := (2 * x) ^^^ (0x11b * (x / 128))

/-- ShiftRows on the 16 bytes of a state, column by column. -/
def shiftRows (b : List Nat) : List Nat :=
  [0, 5, 10, 15, 4, 9, 14, 3, 8, 13, 2, 7, 12, 1, 6, 11].map fun i => b.getD i 0

/-- MixColumns. -/
def mixColumns : List Nat → List Nat
  | a :: b :: c :: d :: rest =>
    (xtime a ^^^ xtime b ^^^ b ^^^ c ^^^ d) :: (a ^^^ xtime b ^^^ xtime c ^^^ c ^^^ d) ::
      (a ^^^ b ^^^ xtime c ^^^ xtime d ^^^ d) :: (xtime a ^^^ a ^^^ b ^^^ c ^^^ xtime d) :: mixColumns rest
  | _ => []

/-- The next round key from one round key. -/
def nextRoundKey (rcon : Nat) : List Nat → List Nat
  | [k0, k1, k2, k3, k4, k5, k6, k7, k8, k9, k10, k11, k12, k13, k14, k15] =>
    let w0 := [k0 ^^^ subByte k13 ^^^ rcon, k1 ^^^ subByte k14, k2 ^^^ subByte k15, k3 ^^^ subByte k12]
    let w1 := List.zipWith Nat.xor w0 [k4, k5, k6, k7]
    let w2 := List.zipWith Nat.xor w1 [k8, k9, k10, k11]
    let w3 := List.zipWith Nat.xor w2 [k12, k13, k14, k15]
    w0 ++ w1 ++ w2 ++ w3
  | _ => []

/-- The nine full rounds and the last, given the key before each and the round constants of the keys to come. -/
def aesRounds (k : List Nat) : List Nat → List Nat → List Nat
  | [], b => b
  | [rc], b => List.zipWith Nat.xor (shiftRows (b.map subByte)) (nextRoundKey rc k)
  | rc :: rest, b =>
    let k' := nextRoundKey rc k
    aesRounds k' rest (List.zipWith Nat.xor (mixColumns (shiftRows (b.map subByte))) k')

/-- AES-128 encryption of one block (FIPS-197): the default cipher, which never fails (R12, R125). -/
def aes128 (key x : Block) : Option Block :=
  let k := (blockBytes key).map (·.toNat)
  let b := List.zipWith Nat.xor ((blockBytes x).map (·.toNat)) k
  let c := aesRounds k [0x01, 0x02, 0x04, 0x08, 0x10, 0x20, 0x40, 0x80, 0x1b, 0x36] b
  some (bytesBlock (c.map (BitVec.ofNat 8)))

/-- The default parameters (R11 to R13): `PAD` is PKCS#7, which appends `p = 16 − (len mod 16)` bytes of value `p`. The free values are
of no meaning here, and `BASE` has no default. -/
def defaultConfig : Config where
  kmax := 15
  base := 0
  cipher := aes128
  padExtra b := if b.length % 16 = 0 ∧ b.length ≠ 0 then 1 else 0
  padByte b _ := BitVec.ofNat 8 (16 - b.length % 16)
  splitUnstated _ := 0
  remUnstated _ := 0
  roundsUnstated _ := 0
  cbcUnstated _ _ _ := none

end Sys2Proof.Machine
end

