-- ==== Sys2Proof/Machine/Setup.lean ====
section
/-! DEFINITION. Which parameters the machine runs with. -/

namespace Sys2Proof.Machine

/-- The parameters of the machine modelled (R11 to R14): open, so what holds of this machine holds for every cipher, padding, length
bound and base address the spec admits. The spec's default parameters are `defaultConfig`. -/
def config : Config := Config.platform

end Sys2Proof.Machine
end

