-- ==== Sys2Proof/Machine/State.lean ====
section
/-! DEFINITION. The state of FFXE (R20 to R42), its faults, and the state after reset. -/

namespace Sys2Proof.Machine

/-- The model faults of R232. An operation raises one before it changes any state; `FAULT` then holds it, and every later step but a
reset answers with it. All are safe: the model stops where the hardware's behaviour is not specified. -/
inductive Fault where
  /-- An access of a wrong width, misaligned, unmapped, or against the register's access type: raised by RD and WR (R55 to R57). Safe. -/
  | busError (off : BitVec 8)
  /-- `CMD` written while `BUSY = 1`: raised by every command (R200). Safe. -/
  | hostProtocolViolation (v : Word)
  /-- A slice out of range: raised by BB_SLICE (R101). Safe. -/
  | bufferRange (lo hi L : Nat)
  /-- XOR of unequal lengths: raised by BB_XOR (R103). Safe. -/
  | lengthMismatch (L L' : Nat)
  /-- A byte string of the wrong length: raised by BB_FROMBYTES (R105). Safe. -/
  | byteCountMismatch (k L : Nat)
  /-- A mask longer than the cipher output: raised by RM_MASK (R124). Safe. -/
  | maskUnderflow (m avail : Nat)
  deriving DecidableEq, Repr

/-- Why an instruction has no meaning. No arm of `exec` refuses. -/
inductive Refusal where
  /-- The instruction of this mnemonic is not modelled: raised by an arm of `exec`. Safe. -/
  | notModelled (mnemonic : String)
  deriving DecidableEq, Repr

/-- The result codes of `STATUS.RESULT` (R74). -/
inductive ResultCode where
  | none
  | ok
  | registered
  | alreadyRegistered
  | invalidLength
  | unregisteredLength
  | cipherBackendFailure
  | keyLocked
  | noKey
  | illegalCommand
  /-- Reserved: never produced (R74, R204). -/
  | invalidKeyMaterial
  deriving DecidableEq, Repr

/-- The operation of a busy command (R37). -/
inductive OpKind where
  | enc
  | dec
  deriving DecidableEq, Repr

/-- What a read or an internal operation returns (R17: `return v`). -/
inductive Value where
  | word (v : Word)
  | bits (X : Bits)
  | bytes (b : Bytes)
  | nat (n : Nat)
  | flag (b : Bool)
  | code (r : ResultCode)
  /-- The cipher's failure value `FAIL` (R12). -/
  | fail
  deriving DecidableEq, Repr

/-- What happens next at FFXE's boundary: an access reaches the register port, the sequencer gets a turn, or reset is applied (R62, R266, R260). -/
inductive Event where
  | access (a : Access)
  | turn
  | reset
  deriving DecidableEq, Repr

/-- The state of FFXE. The fields to `fault` are the spec's (R20); `ret` and `port` are the model's own. -/
structure State where
  /-- `STATUS.BUSY` (R22). -/
  busy : Bool
  /-- `STATUS.KEY_VALID` (R23). -/
  keyValid : Bool
  /-- `STATUS.DOUT_VALID` (R24). -/
  doutValid : Bool
  /-- `STATUS.RESULT` (R25). -/
  result : ResultCode
  /-- `LEN.N` (R28). -/
  len : BitVec 16
  /-- `REGMAP`, the length registry (R29). -/
  regmap : Word
  /-- `KEYIN0..3`, the key staging registers (R30). -/
  keyin : Vector Word 4
  /-- `TWEAK0..3` (R32). -/
  tweak : Vector Word 4
  /-- `DIN0..7`, message in (R33). -/
  din : Vector Word 8
  /-- `DOUT0..7`, message out (R34). -/
  dout : Vector Word 8
  /-- `KEY` (R31). -/
  key : Block
  /-- `W`, the work buffer, `Bits NMAX` (R35). -/
  W : Bits
  /-- `TL`, the latched tweak (R36). -/
  TL : Block
  /-- `NL`, the latched length (R37). -/
  NL : BitVec 16
  /-- `OP`, the operation in progress (R37). -/
  OP : OpKind
  /-- `I`, the round counter (R38). -/
  I : BitVec 8
  /-- `FAULT` (R40). -/
  fault : Option Fault
  /-- The model's own: what the last read or internal operation returned (R17, R77). -/
  ret : Option Value
  /-- The model's own: the events still to come, next first. Every order of accesses, turns and resets is some list (R266). -/
  port : List Event
  deriving DecidableEq, Repr

/-- The state after reset of an FFXE with parameters `C` (R42, R260). `KEY` is held as zero (R31); `OP` has no value of the spec's. -/
def State.resetOf (C : Config) : State where
  busy := false
  keyValid := false
  doutValid := false
  result := .none
  len := 0
  regmap := 0
  keyin := Vector.replicate 4 0
  tweak := Vector.replicate 4 0
  din := Vector.replicate 8 0
  dout := Vector.replicate 8 0
  key := 0
  W := List.replicate C.nmax false
  TL := 0
  NL := 0
  OP := .enc
  I := 0
  fault := none
  ret := none
  port := []

/-- The state after reset (R42, R260). -/
def State.reset : State := State.resetOf config

end Sys2Proof.Machine
end

