-- ==== Sys2Proof/Machine/Flags.lean ====
section
/-! DEFINITION. The status register: the result codes' values (R74) and the word `STATUS` reads as (R22 to R26). FFXE has no
condition codes (R41). -/

namespace Sys2Proof.Machine

/-- The 8-bit value of a result code (R74). -/
def ResultCode.value : ResultCode → BitVec 8
  | .none => 0x00
  | .ok => 0x01
  | .registered => 0x02
  | .alreadyRegistered => 0x03
  | .invalidLength => 0x10
  | .unregisteredLength => 0x11
  | .cipherBackendFailure => 0x12
  | .keyLocked => 0x13
  | .noKey => 0x14
  | .illegalCommand => 0x15
  | .invalidKeyMaterial => 0x16

/-- Is the code a success (R75)? -/
def ResultCode.isSuccess (r : ResultCode) : Bool := r == .ok || r == .registered || r == .alreadyRegistered

/-- Is the code a failure (R75)? -/
def ResultCode.isFailure (r : ResultCode) : Bool := decide (0x10 ≤ r.value.toNat)

/-- The word `STATUS` reads as: RESULT in `[15:8]`, DOUT_VALID, KEY_VALID and BUSY in `[2:0]`, the rest 0 (R22 to R26). -/
def statusWord (s : State) : Word :=
  0#16 ++ s.result.value ++ 0#5 ++ BitVec.ofBool s.doutValid ++ BitVec.ofBool s.keyValid ++ BitVec.ofBool s.busy

end Sys2Proof.Machine
end

