-- ==== Sys2Proof/Machine/Operands.lean ====
section
/-! DEFINITION. Bits, bytes and words: the packing of R15, R53 and R54, the byte lanes of the message registers (R58), and the
operands of the commands (R73). -/

namespace Sys2Proof.Machine

/-- The bits of a word, byte or block as a buffer: bit 0 of the buffer is the most significant (R15, R54). -/
def vecBits {w : Nat} (v : BitVec w) : Bits := (List.range w).map v.getMsbD

/-- The number whose binary digits, most significant first, are the buffer's bits: a step of `bitsVec`, no value of the spec's. -/
def bitsNat (X : Bits) : Nat := X.foldl (fun acc b => 2 * acc + b.toNat) 0

/-- The word, byte or block whose bits are a buffer's, first bit most significant (R15, R54). -/
def bitsVec (w : Nat) (X : Bits) : BitVec w := BitVec.ofNat w (bitsNat X)

/-- The buffer of `L` zero bits, `0^L` (R15). -/
def zeros (L : Nat) : Bits := List.replicate L false

/-- The buffer a group of registers holds: word 0 first, each word's most significant bit first (R54). -/
def wordsBits (ws : List Word) : Bits := ws.flatMap vecBits

/-- The 128-bit value four registers hold (R30, R32, R54). -/
def wordsBlock (ws : Vector Word 4) : Block := ws[0] ++ ws[1] ++ ws[2] ++ ws[3]

/-- Word `j` of a buffer under the packing of R54, its missing bits zero. -/
def bitsWord (X : Bits) (j : Nat) : Word := bitsVec 32 ((List.range 32).map fun i => X.getD (32 * j + i) false)

/-- The eight message registers that hold a buffer (R34, R54). -/
def bitsWords (X : Bits) : Vector Word 8 := Vector.ofFn fun j => bitsWord X j.val

/-- The byte lanes of message word `j` that exist: those of byte positions below `NMAX/8` (R33, R58). -/
def laneMask (C : Config) (j : Nat) : Word := BitVec.allOnes 32 <<< (32 - 8 * min 4 (C.nmax / 8 - 4 * j))

/-- `DINBITS`, the message registers as a buffer of `NMAX` bits (R73). -/
def dinBits (C : Config) (s : State) : Bits := (wordsBits s.din.toList).take C.nmax

/-- The tweak operand (R73). -/
def tweakBlock (s : State) : Block := wordsBlock s.tweak

/-- The staged key (R73). -/
def keyinBlock (s : State) : Block := wordsBlock s.keyin

end Sys2Proof.Machine
end

