-- ==== Sys2Proof/Machine/Ops.lean ====
section
/-! DEFINITION. The operations the meanings share: performing and raising (R17, R40, R232), the register map and register access
(R52, R55 to R58), ending a command (R201, R210, R211), and returning a value (R17). -/

namespace Sys2Proof.Machine

/-- An answer of a step. -/
abbrev Answer := Host.Outcome State Fault Refusal

/-! ### Model faults -/

/-- Raise a model fault: `FAULT` holds it and nothing else changes (R232). FFXE takes no trap and saves nothing (R234). -/
def raise (f : Fault) (s : State) : State := { s with fault := some f }

/-- Perform an operation. A state with `FAULT ≠ none` gives no meaning to any step (R40). An operation that raises a fault does so
before it changes any state (R232). -/
def perform (s : State) (body : State → Except Fault State) : Answer :=
  match s.fault with
  | some f => .fault f
  | none =>
    match body s with
    | .ok t => .next t
    | .error f => .next (raise f s)

/-! ### Datapath results -/

/-- Why a datapath operation returns no value: the cipher failed (R12), or it raised a model fault (R17). -/
inductive Stop where
  | fail
  | raised (f : Fault)
  deriving DecidableEq, Repr

/-- The result of a datapath operation. -/
abbrev Dp (α : Type) := Except Stop α

/-- A datapath operation applied alone: its value, or `FAIL`, is returned, and a fault is raised (R17, R193). -/
def returns (r : Dp Value) (s : State) : Except Fault State :=
  match r with
  | .ok v => .ok { s with ret := some v }
  | .error .fail => .ok { s with ret := some .fail }
  | .error (.raised f) => .error f

/-! ### The register map -/

/-- The registers of the window (R52). -/
inductive Reg where
  | cmd
  | status
  | len
  | regmap
  | keyin (j : Fin 4)
  | tweak (j : Fin 4)
  | din (j : Fin 8)
  | dout (j : Fin 8)
  deriving DecidableEq, Repr

/-- The register at an offset; none where the offset is unmapped (R52, R56). -/
def regAt (off : BitVec 8) : Option Reg :=
  match off.toNat with
  | 0x00 => some .cmd
  | 0x04 => some .status
  | 0x08 => some .len
  | 0x0C => some .regmap
  | 0x10 => some (.keyin 0)
  | 0x14 => some (.keyin 1)
  | 0x18 => some (.keyin 2)
  | 0x1C => some (.keyin 3)
  | 0x20 => some (.tweak 0)
  | 0x24 => some (.tweak 1)
  | 0x28 => some (.tweak 2)
  | 0x2C => some (.tweak 3)
  | 0x40 => some (.din 0)
  | 0x44 => some (.din 1)
  | 0x48 => some (.din 2)
  | 0x4C => some (.din 3)
  | 0x50 => some (.din 4)
  | 0x54 => some (.din 5)
  | 0x58 => some (.din 6)
  | 0x5C => some (.din 7)
  | 0x60 => some (.dout 0)
  | 0x64 => some (.dout 1)
  | 0x68 => some (.dout 2)
  | 0x6C => some (.dout 3)
  | 0x70 => some (.dout 4)
  | 0x74 => some (.dout 5)
  | 0x78 => some (.dout 6)
  | 0x7C => some (.dout 7)
  | _ => none

/-- The offset of a register (R52). -/
def Reg.offset : Reg → BitVec 8
  | .cmd => 0x00
  | .status => 0x04
  | .len => 0x08
  | .regmap => 0x0C
  | .keyin j => BitVec.ofNat 8 (0x10 + 4 * j.val)
  | .tweak j => BitVec.ofNat 8 (0x20 + 4 * j.val)
  | .din j => BitVec.ofNat 8 (0x40 + 4 * j.val)
  | .dout j => BitVec.ofNat 8 (0x60 + 4 * j.val)

/-- The access types of R52: W and RW registers may be written, R and RW registers read. -/
def Reg.allows : Reg → Dir → Bool
  | .cmd, .read | .keyin _, .read => false
  | .status, .write | .regmap, .write | .dout _, .write => false
  | _, _ => true

/-- The register an access reaches, or `BusError`: the access must be 32 bits wide, at a multiple of 4, mapped, and of a direction the
register allows (R55 to R57). -/
def accessed (dir : Dir) (off : BitVec 8) (size : Nat) : Except Fault Reg :=
  if size = 4 ∧ off.toNat % 4 = 0 then
    match regAt off with
    | some r => if r.allows dir then .ok r else .error (.busError off)
    | none => .error (.busError off)
  else .error (.busError off)

/-- The bits of `REGMAP` that exist: 0 to `KMAX` (R29). -/
def regmapMask (C : Config) : Word := BitVec.ofNat 32 (2 ^ (C.kmax.val + 1) - 1)

/-- The value a readable register reads as, reserved bits 0 (R58, R212). The W registers, which `accessed` lets no read reach, have no
value here but 0. -/
def readReg (C : Config) (s : State) : Reg → Word
  | .status => statusWord s
  | .len => s.len.setWidth 32
  | .regmap => s.regmap &&& regmapMask C
  | .tweak j => s.tweak[j]
  | .din j => s.din[j] &&& laneMask C j.val
  | .dout j => s.dout[j] &&& laneMask C j.val
  | .cmd | .keyin _ => 0

/-- Store a word into a storing register, ignoring its reserved bits (R58, R213). `CMD` stores nothing (R27), and `accessed` lets no
write reach an R register. -/
def writeReg (C : Config) (v : Word) (s : State) : Reg → State
  | .len => { s with len := v.setWidth 16 }
  | .keyin j => { s with keyin := s.keyin.set j v }
  | .tweak j => { s with tweak := s.tweak.set j v }
  | .din j => { s with din := s.din.set j (v &&& laneMask C j.val) }
  | .cmd | .status | .regmap | .dout _ => s

/-! ### Ending a command -/

/-- `complete(code)`, the end of an immediate command (R17, R201). `DOUT` and `DOUT_VALID` of an earlier ENC or DEC stay, also when `RESULT`
no longer reads OK: the model follows R24, R201 and R202, not the letter of R267 (DEDUCED, log entry 22). -/
def complete (code : ResultCode) (s : State) : State := { s with result := code, busy := false }

/-- The round state of a finished or aborted command is destroyed: `W` and `TL` are cleared (R35, R36). -/
def wipe (C : Config) (s : State) : State := { s with W := zeros C.nmax, TL := 0 }

/-- `finish()`, the successful end of a busy command: the message goes out, and the round state is destroyed (R210). -/
def finish (C : Config) (s : State) : State :=
  { wipe C s with
    dout := bitsWords (s.W.take s.NL.toNat ++ zeros (C.nmax - s.NL.toNat))
    doutValid := true
    result := .ok
    busy := false }

/-- `abort(code)`, the failed end of a busy command (R211): `DOUT` and `DOUT_VALID` stay as they are, 0 since the issue. -/
def abort (C : Config) (code : ResultCode) (s : State) : State :=
  { wipe C s with result := code, busy := false }

end Sys2Proof.Machine
end

