-- ==== Sys2Proof/Machine/Params.lean ====
section
/-! DEFINITION. The parameter derivation (43_params.md, R140 to R143): exact naturals, pure functions of the length, never cached (R39).
Outside their precondition `PS_VALID(n)` the first three state no result: a free value. -/

namespace Sys2Proof.Machine

/-- `PS_VALID(n)` (R143). -/
def psValid (C : Config) (n : Nat) : Bool := n % 8 == 0 && decide (Config.MINLEN ≤ n) && decide (n ≤ C.nmax)

/-- `PS_SPLIT(n)` (R140). -/
def psSplit (C : Config) (n : Nat) : Nat := if psValid C n then n - Config.REM else C.splitUnstated n

/-- `PS_REM(n)` (R141). -/
def psRem (C : Config) (n : Nat) : Nat := if psValid C n then n - psSplit C n else C.remUnstated n

/-- `PS_ROUNDS(n)`, `ceil(4·n / split(n))` (R142). -/
def psRounds (C : Config) (n : Nat) : Nat :=
  if psValid C n then (Config.ROUNDFACTOR * n + psSplit C n - 1) / psSplit C n else C.roundsUnstated n

/-- PS_SPLIT applied alone (R140). -/
def execPsSplit (n : Nat) (s : State) : Answer :=
  perform s fun s => returns (.ok (.nat (psSplit config n))) s

/-- PS_REM applied alone (R141). -/
def execPsRem (n : Nat) (s : State) : Answer :=
  perform s fun s => returns (.ok (.nat (psRem config n))) s

/-- PS_ROUNDS applied alone (R142). -/
def execPsRounds (n : Nat) (s : State) : Answer :=
  perform s fun s => returns (.ok (.nat (psRounds config n))) s

/-- PS_VALID applied alone (R143). -/
def execPsValid (n : Nat) (s : State) : Answer :=
  perform s fun s => returns (.ok (.flag (psValid config n))) s

end Sys2Proof.Machine
end

