-- ==== Sys2Proof/Machine/BitBuffer.lean ====
section
/-! DEFINITION. The FixedBitBuffer primitives, for any length (41_bitbuffer.md, R100 to R105). -/

namespace Sys2Proof.Machine

/-- `BB_SLICE(X, lo, hi)`: the bits `X_lo … X_{hi−1}` (R101). -/
def bbSlice (X : Bits) (lo hi : Nat) : Dp Bits :=
  if lo ≤ hi ∧ hi ≤ X.length then .ok ((X.drop lo).take (hi - lo))
  else .error (.raised (.bufferRange lo hi X.length))

/-- `BB_CONCAT(X, Y)`: the first operand supplies the first bits (R102). -/
def bbConcat (X Y : Bits) : Bits := X ++ Y

/-- `BB_XOR(X, Y)`: bit by bit, equal lengths only (R103). -/
def bbXor (X Y : Bits) : Dp Bits :=
  if X.length = Y.length then .ok (List.zipWith Bool.xor X Y)
  else .error (.raised (.lengthMismatch X.length Y.length))

/-- `ceil(L / 8)` (R16). -/
def byteCount (L : Nat) : Nat := (L + 7) / 8

/-- `BB_TOBYTES(X)`: `ceil(L/8)` bytes, first bit most significant, the last byte's missing bits 0 (R104). -/
def bbTobytes (X : Bits) : Bytes :=
  (List.range (byteCount X.length)).map fun b => bitsVec 8 ((List.range 8).map fun m => X.getD (8 * b + m) false)

/-- `BB_FROMBYTES(bytes, L)`: the pad bits of the last byte are ignored (R105). -/
def bbFrombytes (b : Bytes) (L : Nat) : Dp Bits :=
  if b.length = byteCount L then .ok ((List.range L).map fun i => (b.getD (i / 8) 0).getMsbD (i % 8))
  else .error (.raised (.byteCountMismatch b.length L))

/-- BB_SLICE applied alone (R101). -/
def execBbSlice (X : Bits) (lo hi : Nat) (s : State) : Answer :=
  perform s fun s => returns ((bbSlice X lo hi).map .bits) s

/-- BB_CONCAT applied alone (R102). -/
def execBbConcat (X Y : Bits) (s : State) : Answer :=
  perform s fun s => returns (.ok (.bits (bbConcat X Y))) s

/-- BB_XOR applied alone (R103). -/
def execBbXor (X Y : Bits) (s : State) : Answer :=
  perform s fun s => returns ((bbXor X Y).map .bits) s

/-- BB_TOBYTES applied alone (R104). -/
def execBbTobytes (X : Bits) (s : State) : Answer :=
  perform s fun s => returns (.ok (.bytes (bbTobytes X))) s

/-- BB_FROMBYTES applied alone (R105). -/
def execBbFrombytes (b : Bytes) (L : Nat) (s : State) : Answer :=
  perform s fun s => returns ((bbFrombytes b L).map .bits) s

end Sys2Proof.Machine
end

