-- ==== Sys2Proof/Machine/RoundMask.lean ====
section
/-! DEFINITION. The round-mask generator (42_roundmask.md, R120 to R128): padding, cipher block chaining with the tweak as the IV, and
the leading bits. The cipher always runs forward (R123), and no round counter enters (R127). -/

namespace Sys2Proof.Machine

/-- How many blocks the padded string has: enough to hold it, at least one, and `padExtra` more (R13, R121). -/
def padBlocks (C : Config) (b : Bytes) : Nat := max 1 ((b.length + 15) / 16) + C.padExtra b

/-- `PAD`: the string extended to whole 16-byte blocks (R13). -/
def pad (C : Config) (b : Bytes) : Bytes :=
  b ++ (List.range (16 * padBlocks C b - b.length)).map (C.padByte b)

/-- `RM_PAD(H)` (R121). -/
def rmPad (C : Config) (H : Bits) : Bytes := pad C (bbTobytes H)

/-- The first `q` blocks of a byte string: `P_1 … P_q` (R122). -/
def blocksOf : Nat → Bytes → List Block
  | 0, _ => []
  | q + 1, P => bytesBlock P :: blocksOf q (P.drop 16)

/-- The loop of RM_CBC: `C_j = E(KEY, P_j ⊕ C_{j−1})`; none when the cipher fails (R122). -/
def cbcBlocks (C : Config) (key : Block) : Block → List Block → Option (List Block)
  | _, [] => some []
  | prev, P :: Ps =>
    match C.cipher key (P ^^^ prev) with
    | none => none
    | some c => (cbcBlocks C key c Ps).map (c :: ·)

/-- A value of the cipher, or `FAIL`, as the result of a datapath operation (R12). -/
def orFail {α : Type} : Option α → Dp α
  | some v => .ok v
  | none => .error .fail

/-- `RM_CBC(T, P)` (R122). For a string that is no whole number of blocks the spec states no result: a free value. -/
def rmCbc (C : Config) (key : Block) (T : Block) (P : Bytes) : Dp Bytes :=
  if P.length % 16 = 0 then orFail ((cbcBlocks C key T (blocksOf (P.length / 16) P)).map (·.flatMap blockBytes))
  else orFail (C.cbcUnstated key T P)

/-- `RM_MASK(T, H, m)`: the leading `m` bits of the cipher output (R124). -/
def rmMask (C : Config) (key : Block) (T : Block) (H : Bits) (m : Nat) : Dp Bits :=
  let P := rmPad C H
  let q := P.length / 16
  match rmCbc C key T P with
  | .error e => .error e
  | .ok O =>
    match bbFrombytes O (128 * q) with
    | .error e => .error e
    | .ok Ob => if 128 * q < m then .error (.raised (.maskUnderflow m (128 * q))) else bbSlice Ob 0 m

/-- RM_PAD applied alone (R121). -/
def execRmPad (H : Bits) (s : State) : Answer :=
  perform s fun s => returns (.ok (.bytes (rmPad config H))) s

/-- RM_CBC applied alone: it reads `KEY` (R122). -/
def execRmCbc (T : Block) (P : Bytes) (s : State) : Answer :=
  perform s fun s => returns ((rmCbc config s.key T P).map .bytes) s

/-- RM_MASK applied alone: it reads `KEY` and writes no state (R120, R124). -/
def execRmMask (T : Block) (H : Bits) (m : Nat) (s : State) : Answer :=
  perform s fun s => returns ((rmMask config s.key T H m).map .bits) s

end Sys2Proof.Machine
end

