-- ==== Sys2Proof/Machine/Feistel.lean ====
section
/-! DEFINITION. The Feistel rounds, the sequences, and the sequencer's steps (45_feistel.md, R180 to R188). The round index enters no
value (R185). -/

namespace Sys2Proof.Machine

/-- `FE_ROUND_ENC(X, T)`, one forward round (R180). -/
def feRoundEnc (C : Config) (key : Block) (X : Bits) (T : Block) : Dp Bits := do
  let n := X.length
  let s := psSplit C n
  let A ← bbSlice X 0 s
  let B ← bbSlice X s n
  let F ← rmMask C key T B s
  let D ← bbXor A F
  return bbConcat B D

/-- `FE_ROUND_DEC(Y, T)`, one reverse round: it cuts at `remainder(n)`, and its mask is the forward one (R181, R123). -/
def feRoundDec (C : Config) (key : Block) (Y : Bits) (T : Block) : Dp Bits := do
  let n := Y.length
  let s := psSplit C n
  let B ← bbSlice Y 0 (psRem C n)
  let D ← bbSlice Y (psRem C n) n
  let F ← rmMask C key T B s
  let A ← bbXor D F
  return bbConcat A B

/-- One round in the direction of an operation. -/
def feRound (C : Config) (op : OpKind) (key : Block) (X : Bits) (T : Block) : Dp Bits :=
  match op with
  | .enc => feRoundEnc C key X T
  | .dec => feRoundDec C key X T

/-- `k` rounds in one direction, ending at the first that fails (R183, R184). -/
def feRounds (C : Config) (op : OpKind) (key : Block) (T : Block) : Nat → Bits → Dp Bits
  | 0, X => .ok X
  | k + 1, X =>
    match feRound C op key X T with
    | .ok R => feRounds C op key T k R
    | .error e => .error e

/-- `FE_ENCRYPT(T, X)`: `rounds(n)` forward rounds (R183). -/
def feEncrypt (C : Config) (key : Block) (T : Block) (X : Bits) : Dp Bits :=
  feRounds C .enc key T (psRounds C X.length) X

/-- `FE_DECRYPT(T, Y)`: `rounds(n)` reverse rounds (R184). -/
def feDecrypt (C : Config) (key : Block) (T : Block) (Y : Bits) : Dp Bits :=
  feRounds C .dec key T (psRounds C Y.length) Y

/-- The last lines of a sequencer step: the counter and the end of the command (R187 counts up and compares after, R188 compares
before it counts down). -/
def advance (C : Config) (op : OpKind) (s : State) : State :=
  match op with
  | .enc =>
    if (s.I + 1).toNat = psRounds C s.NL.toNat then finish C { s with I := s.I + 1 } else { s with I := s.I + 1 }
  | .dec => if s.I = 0 then finish C s else { s with I := s.I - 1 }

/-- One sequencer step of an operation, enabled while that operation is in progress; a step that is not enabled does not happen
(R187, R188). -/
def seqStep (C : Config) (op : OpKind) (s : State) : Except Fault State :=
  if s.busy = true ∧ s.OP = op then
    match bbSlice s.W 0 s.NL.toNat with
    | .error (.raised f) => .error f
    | .error .fail => .ok (abort C .cipherBackendFailure s)
    | .ok X =>
      match feRound C op s.key X s.TL with
      | .error (.raised f) => .error f
      | .error .fail => .ok (abort C .cipherBackendFailure s)
      | .ok R => .ok (advance C op { s with W := bbConcat R (zeros (C.nmax - s.NL.toNat)) })
  else .ok s

/-- FE_ROUND_ENC applied alone (R180). -/
def execFeRoundEnc (X : Bits) (T : Block) (s : State) : Answer :=
  perform s fun s => returns ((feRoundEnc config s.key X T).map .bits) s

/-- FE_ROUND_DEC applied alone (R181). -/
def execFeRoundDec (Y : Bits) (T : Block) (s : State) : Answer :=
  perform s fun s => returns ((feRoundDec config s.key Y T).map .bits) s

/-- FE_ENCRYPT applied alone (R183). -/
def execFeEncrypt (T : Block) (X : Bits) (s : State) : Answer :=
  perform s fun s => returns ((feEncrypt config s.key T X).map .bits) s

/-- FE_DECRYPT applied alone (R184). -/
def execFeDecrypt (T : Block) (Y : Bits) (s : State) : Answer :=
  perform s fun s => returns ((feDecrypt config s.key T Y).map .bits) s

/-- SEQ_STEP_ENC (R187). -/
def execSeqStepEnc (s : State) : Answer := perform s (seqStep config .enc)

/-- SEQ_STEP_DEC (R188). -/
def execSeqStepDec (s : State) : Answer := perform s (seqStep config .dec)

end Sys2Proof.Machine
end

