-- ==== Sys2Proof/Machine/Registry.lean ====
section
/-! DEFINITION. The length registry (44_registry.md, R160 to R164): the bitmap `REGMAP`. It never shrinks, and only LR_REGISTER adds to it. -/

namespace Sys2Proof.Machine

/-- `k(n)`, the registry bit of a valid length (R160). -/
def regBit (n : Nat) : Nat := (n - Config.MINLEN) / 8

/-- `LR_REGISTER(n)`: its result code and the registry after it (R161). -/
def lrRegister (C : Config) (n : Nat) (regmap : Word) : ResultCode × Word :=
  if !psValid C n then (.invalidLength, regmap)
  else if regmap.getLsbD (regBit n) then (.alreadyRegistered, regmap)
  else (.registered, regmap ||| BitVec.ofNat 32 (2 ^ regBit n))

/-- `LR_ENSURE(n)` (R162). -/
def lrEnsure (C : Config) (n : Nat) (regmap : Word) : Bool := psValid C n && regmap.getLsbD (regBit n)

/-- LR_REGISTER applied alone: it returns the code and writes `REGMAP` only (R161). -/
def execLrRegister (n : Nat) (s : State) : Answer :=
  perform s fun s =>
    returns (.ok (.code (lrRegister config n s.regmap).1)) { s with regmap := (lrRegister config n s.regmap).2 }

/-- LR_ENSURE applied alone (R162). -/
def execLrEnsure (n : Nat) (s : State) : Answer :=
  perform s fun s => returns (.ok (.flag (lrEnsure config n s.regmap))) s

end Sys2Proof.Machine
end

