-- ==== Sys2Proof/Machine/Commands.lean ====
section
/-! DEFINITION. The host commands (46_commands.md, R200 to R209). -/

namespace Sys2Proof.Machine

/-- A command word reaches `CMD`: while a command is in progress that is a protocol violation, before anything else (R200, R233). -/
def command (v : Word) (body : State → State) (s : State) : Except Fault State :=
  if s.busy then .error (.hostProtocolViolation v) else .ok (body s)

/-- LOADKEY (R203, R204): the first after reset loads and locks the key; either way the staging registers are cleared. -/
def loadKey (s : State) : State :=
  if s.keyValid then complete .keyLocked { s with keyin := Vector.replicate 4 0 }
  else complete .ok { s with key := keyinBlock s, keyValid := true, keyin := Vector.replicate 4 0 }

/-- REGLEN (R205). -/
def regLen (C : Config) (s : State) : State :=
  complete (lrRegister C s.len.toNat s.regmap).1 { s with regmap := (lrRegister C s.len.toNat s.regmap).2 }

/-- The value the round counter starts at (R207). -/
def firstRound (C : Config) (op : OpKind) (n : Nat) : BitVec 8 :=
  match op with
  | .enc => 0
  | .dec => BitVec.ofNat 8 (psRounds C n - 1)

/-- ENC or DEC goes busy: the operands are copied (R207). `LR_ENSURE` has made `n ≤ NMAX`, so the slice of `DINBITS` is in range (R191). -/
def goBusy (C : Config) (op : OpKind) (s : State) : State :=
  { s with
    W := bbConcat ((dinBits C s).take s.len.toNat) (zeros (C.nmax - s.len.toNat))
    TL := tweakBlock s
    NL := s.len
    OP := op
    I := firstRound C op s.len.toNat
    result := .none
    busy := true }

/-- The issue of ENC or DEC: the output is cleared, the checks run in order, and the command goes busy (R206, R207). -/
def issueCrypt (C : Config) (op : OpKind) (s : State) : State :=
  let s := { s with dout := Vector.replicate 8 0, doutValid := false }
  if !s.keyValid then complete .noKey s
  else if !lrEnsure C s.len.toNat s.regmap then complete .unregisteredLength s
  else goBusy C op s

/-- What a command word does to a state with no command in progress (R200). -/
def dispatchWord (C : Config) (v : Word) (s : State) : State :=
  if v = 0x00000001 then loadKey s
  else if v = 0x00000002 then regLen C s
  else if v = 0x00000003 then issueCrypt C .enc s
  else if v = 0x00000004 then issueCrypt C .dec s
  else complete .illegalCommand s

/-- LOADKEY, the command word `0x00000001` (R203, R204). -/
def execLoadkey (s : State) : Answer := perform s (command 0x00000001 loadKey)

/-- REGLEN, the command word `0x00000002` (R205). -/
def execReglen (s : State) : Answer := perform s (command 0x00000002 (regLen config))

/-- ENC, the command word `0x00000003` (R206 to R208): its issue. Its rounds are the sequencer's. -/
def execEnc (s : State) : Answer := perform s (command 0x00000003 (issueCrypt config .enc))

/-- DEC, the command word `0x00000004` (R206, R207, R209): its issue. Its rounds are the sequencer's. -/
def execDec (s : State) : Answer := perform s (command 0x00000004 (issueCrypt config .dec))

/-- ILLEGAL, any other command word (R202). -/
def execIllegal (w : Word) (s : State) : Answer := perform s (command w (complete .illegalCommand))

end Sys2Proof.Machine
end

