-- ==== Sys2Proof/Machine/Bus.lean ====
section
/-! DEFINITION. The bus operations RD and WR (R212, R213). -/

namespace Sys2Proof.Machine

/-- A host read: the register's value is returned and no state changes (R59, R212). -/
def busRead (C : Config) (off : BitVec 8) (size : Nat) (s : State) : Except Fault State :=
  match accessed .read off size with
  | .ok r => .ok { s with ret := some (.word (readReg C s r)) }
  | .error f => .error f

/-- A host write: to `CMD` it issues the command (R200), to another register it stores (R60, R213). -/
def busWrite (C : Config) (off : BitVec 8) (size : Nat) (v : Word) (s : State) : Except Fault State :=
  match accessed .write off size with
  | .ok .cmd => command v (dispatchWord C v) s
  | .ok r => .ok (writeReg C v s r)
  | .error f => .error f

/-- RD (R212). -/
def execRd (off : BitVec 8) (size : Nat) (s : State) : Answer := perform s (busRead config off size)

/-- WR (R213). -/
def execWr (off : BitVec 8) (size : Nat) (v : Word) (s : State) : Answer := perform s (busWrite config off size v)

end Sys2Proof.Machine
end

