-- ==== Sys2Proof/Machine/Dispatch.lean ====
section
/-! DEFINITION. The meaning of each instruction: one arm per constructor of `Instr`. -/

namespace Sys2Proof.Machine

def exec (i : Instr) (s : State) : Host.Outcome State Fault Refusal :=
  match i with
  | .loadkey => Sys2Proof.Machine.execLoadkey s
  | .reglen => Sys2Proof.Machine.execReglen s
  | .enc => Sys2Proof.Machine.execEnc s
  | .dec => Sys2Proof.Machine.execDec s
  | .illegal w => Sys2Proof.Machine.execIllegal w s
  | .rd off size => Sys2Proof.Machine.execRd off size s
  | .wr off size v => Sys2Proof.Machine.execWr off size v s
  | .bbSlice X lo hi => Sys2Proof.Machine.execBbSlice X lo hi s
  | .bbConcat X Y => Sys2Proof.Machine.execBbConcat X Y s
  | .bbXor X Y => Sys2Proof.Machine.execBbXor X Y s
  | .bbTobytes X => Sys2Proof.Machine.execBbTobytes X s
  | .bbFrombytes b L => Sys2Proof.Machine.execBbFrombytes b L s
  | .rmPad H => Sys2Proof.Machine.execRmPad H s
  | .rmCbc T P => Sys2Proof.Machine.execRmCbc T P s
  | .rmMask T H m => Sys2Proof.Machine.execRmMask T H m s
  | .psSplit n => Sys2Proof.Machine.execPsSplit n s
  | .psRem n => Sys2Proof.Machine.execPsRem n s
  | .psRounds n => Sys2Proof.Machine.execPsRounds n s
  | .psValid n => Sys2Proof.Machine.execPsValid n s
  | .lrRegister n => Sys2Proof.Machine.execLrRegister n s
  | .lrEnsure n => Sys2Proof.Machine.execLrEnsure n s
  | .feRoundEnc X T => Sys2Proof.Machine.execFeRoundEnc X T s
  | .feRoundDec Y T => Sys2Proof.Machine.execFeRoundDec Y T s
  | .feEncrypt T X => Sys2Proof.Machine.execFeEncrypt T X s
  | .feDecrypt T Y => Sys2Proof.Machine.execFeDecrypt T Y s
  | .seqStepEnc => Sys2Proof.Machine.execSeqStepEnc s
  | .seqStepDec => Sys2Proof.Machine.execSeqStepDec s

end Sys2Proof.Machine
end

