-- ==== Sys2Proof/Machine/Turn.lean ====
section
/-! DEFINITION. What one event does: an access runs the instruction it is, a turn runs the sequencer's step (R62, R266). -/

namespace Sys2Proof.Machine

/-- The instruction the sequencer performs for the operation in progress (R187, R188). -/
def seqInstr (s : State) : Instr :=
  match s.OP with
  | .enc => .seqStepEnc
  | .dec => .seqStepDec

/-- An access at the port: the instruction it decodes to is performed. -/
def accessEvent (a : Access) (s : State) : Answer := exec (decode a) s

/-- The sequencer's turn: one round while a command is in progress, nothing otherwise (R187, R188); no meaning once faulted (R40). -/
def turnEvent (s : State) : Answer :=
  match s.fault with
  | some f => .fault f
  | none => if s.busy then exec (seqInstr s) s else .next s

/-- Reset: every field takes its reset value, in any state, also a faulted one (R260, R261). What is still to come at the boundary stays to come. -/
def resetEvent (s : State) : Answer := .next { State.reset with port := s.port }

end Sys2Proof.Machine
end

