-- ==== Sys2Proof/Machine/Step.lean ====
section
/-! DEFINITION. One step of the machine. -/

namespace Sys2Proof.Machine

/-- One step: the next event at the boundary happens. When no more is to come, the sequencer alone goes on, so a busy command always
gets its turns (R266, R268); with no command in progress FFXE waits (R260). -/
def step (s : State) : Host.Outcome State Fault Refusal :=
  match s.port with
  | [] => turnEvent s
  | .access a :: rest => accessEvent a { s with port := rest }
  | .turn :: rest => turnEvent { s with port := rest }
  | .reset :: rest => resetEvent { s with port := rest }

/-- The state whose next event is the write of a command word to `CMD`: where FFXE takes its next command from (R27, R70).
A word wider than 32 bits is written by a wider access, which is no command (R76). -/
def State.withFetchWord (s : State) (nbits w : Nat) : State :=
  { s with port := .access ⟨.write, 0x00, if nbits ≤ 32 then 4 else nbits / 8, BitVec.ofNat 32 w⟩ :: s.port }

end Sys2Proof.Machine
end

