-- ==== Sys2Proof/Machine/HostProgram.lean ====
section
/-! DEFINITION. The host's notation: transactions by register name (R77) and the expansions of the pseudo-commands (R78). -/

namespace Sys2Proof.Machine

/-- `WR <REG>, <imm32>` (R77). -/
def hostWr (r : Reg) (v : Word) : Event := .access ⟨.write, r.offset, 4, v⟩

/-- `RD <REG>` (R77). -/
def hostRd (r : Reg) : Event := .access ⟨.read, r.offset, 4, 0⟩

/-- Word `j` of a 16-byte string (R54). -/
def blockWord (b : Block) (j : Fin 4) : Word := b.extractLsb' (96 - 32 * j.val) 32

/-- The message registers an `n`-bit message needs: the first `ceil(n/32)`, of eight (R78). -/
def messageRegs (n : Nat) : List (Fin 8) := (List.finRange 8).take ((n + 31) / 32)

/-- `LOADKEY k` (R78). -/
def pseudoLoadkey (k : Block) : List Event :=
  (List.finRange 4).map (fun j => hostWr (.keyin j) (blockWord k j)) ++ [hostWr .cmd 0x00000001]

/-- `REGLEN n` (R78). -/
def pseudoReglen (n : Nat) : List Event := [hostWr .len (BitVec.ofNat 32 n), hostWr .cmd 0x00000002]

/-- `POLL`, when it takes `k` reads: the loop is the host's and ends at the first read that shows `BUSY = 0` (R78, R268). The sequencer has
a turn between two reads. -/
def poll : Nat → List Event
  | 0 => []
  | 1 => [hostRd .status]
  | k + 2 => hostRd .status :: .turn :: poll (k + 1)

/-- `ENC t, m, n` and `DEC t, m, n`, the message `m` a buffer of `n` bits, when its POLL takes `k` reads (R78). -/
def pseudoCrypt (op : OpKind) (t : Block) (m : Bits) (k : Nat) : List Event :=
  (List.finRange 4).map (fun j => hostWr (.tweak j) (blockWord t j)) ++
    (messageRegs m.length).map (fun j => hostWr (.din j) (bitsWord m j.val)) ++
    [hostWr .len (BitVec.ofNat 32 m.length), hostWr .cmd (match op with | .enc => 0x00000003 | .dec => 0x00000004)] ++
    poll k ++ [hostRd .status] ++ (messageRegs m.length).map (fun j => hostRd (.dout j))

end Sys2Proof.Machine
end

