-- ==== Sys2Proof/Safety.lean ====
section
/-! DEFINITION. What a good state and a safe step of FFXE are, in the terms the claims use (R43, R193). -/

namespace Sys2Proof.Machine

/-- The rounds a busy command still has to perform: `I` counts up for ENC and down for DEC (R38). -/
def roundsLeft (C : Config) (s : State) : Nat :=
  match s.OP with
  | .enc => psRounds C s.NL.toNat - s.I.toNat
  | .dec => s.I.toNat + 1

/-- The invariants of the state. The first five are R43's 1 to 3 and what R25 and R38 say of a busy command; the others say that fields hold
only what their rules let them hold. -/
structure Inv (C : Config) (s : State) : Prop where
  /-- `BUSY = 0` implies `W = 0^NMAX` and `TL = 0^128` (R43). -/
  idleWiped : s.busy = false → s.W = zeros C.nmax ∧ s.TL = 0
  /-- `DOUT_VALID = 0` implies every `DOUT` bit is 0 (R43). -/
  invalidOutputZero : s.doutValid = false → s.dout = Vector.replicate 8 0
  /-- `BUSY = 1` implies a key, a registered latched length and no valid output (R43). -/
  busyReady : s.busy = true → s.keyValid = true ∧ lrEnsure C s.NL.toNat s.regmap = true ∧ s.doutValid = false
  /-- `RESULT` reads NONE while a command is in progress (R25). -/
  busyNoResult : s.busy = true → s.result = .none
  /-- `I` is the index of a round of the command in progress (R38). -/
  busyRound : s.busy = true → s.I.toNat < psRounds C s.NL.toNat
  /-- `W` is `NMAX` bits (R35). -/
  workLength : s.W.length = C.nmax
  /-- The bits of `W` beyond the message stay 0 (R35). -/
  workTail : s.busy = true → s.W.drop s.NL.toNat = zeros (C.nmax - s.NL.toNat)
  /-- `REGMAP` has no bit above `KMAX` (R29). -/
  registryBits : s.regmap &&& regmapMask C = s.regmap
  /-- The byte lanes of `DIN` at or beyond `NMAX/8` hold 0 (R33). -/
  inputLanes : ∀ j : Fin 8, s.din[j] &&& laneMask C j.val = s.din[j]
  /-- A valid output has no bit at or beyond `NL` (R34). -/
  outputTail : s.doutValid = true →
    (wordsBits s.dout.toList).drop s.NL.toNat = zeros (256 - s.NL.toNat) ∧ s.NL.toNat ≤ C.nmax
  /-- INVALID_KEY_MATERIAL is never produced (R74). -/
  resultProduced : s.result ≠ .invalidKeyMaterial

/-- The faults a host can cause; the others are the datapath's, applied alone outside its preconditions (R193). -/
def Fault.isHostFault : Fault → Bool
  | .busError _ | .hostProtocolViolation _ => true
  | .bufferRange _ _ _ | .lengthMismatch _ _ | .byteCountMismatch _ _ | .maskUnderflow _ _ => false

/-- Is the next event of the state a reset? -/
def resetNext (s : State) : Bool :=
  match s.port with
  | .reset :: _ => true
  | _ => false

end Sys2Proof.Machine
end

