-- ==== Sys2Proof/Certificates/Slice0/Obligations.lean ====
section
/-! DEFINITION. The statements for the provers. `config` is the machine's own, open configuration; a statement over every `C` holds for every
cipher, padding and length bound. A conclusion `exec i s = .next …` gives the whole next state, so it is the instruction's result and its
frame at once, and says that the instruction completes. -/

open Sys2Proof Sys2Proof.Machine

/-! ### Encoding, the window and the step -/

/-- R71, R72: the four command words and, for every other word, ILLEGAL. -/
def Obligations.CommandWordsDecodeToTheirCommands : Prop :=
  decode ⟨.write, 0x00, 4, 0x00000001⟩ = .loadkey ∧ decode ⟨.write, 0x00, 4, 0x00000002⟩ = .reglen ∧
  decode ⟨.write, 0x00, 4, 0x00000003⟩ = .enc ∧ decode ⟨.write, 0x00, 4, 0x00000004⟩ = .dec ∧
  decode ⟨.write, 0x00, 4, 0x00000000⟩ = .illegal 0x00000000 ∧ decode ⟨.write, 0x00, 4, 0x00000103⟩ = .illegal 0x00000103 ∧
  ∀ w : Word, w ≠ 1 → w ≠ 2 → w ≠ 3 → w ≠ 4 → decode ⟨.write, 0x00, 4, w⟩ = .illegal w

/-- R70 to R73, R77: every host access is exactly one well-formed instruction. Decoding undoes encoding for every well-formed instruction a
host can issue, and encoding undoes decoding (a read carries no data). -/
def Obligations.EncodingAndDecodingAreInverse : Prop :=
  (∀ i : Instr, i.isHost = true → i.wf = true → ∃ a, encode i = some a ∧ decode a = i) ∧
  (∀ a : Access, (decode a).isHost = true ∧ (decode a).wf = true ∧
    encode (decode a) = some (match a.dir with | .read => { a with data := 0 } | .write => a)) ∧
  (∀ i : Instr, i.isHost = false → encode i = none)

/-- R50: the window is the 256 bytes at `BASE`; any other address is none of FFXE's. -/
def Obligations.WindowIsTheBytesAtItsBase : Prop :=
  ∀ (C : Config) (dir : Dir) (size : Nat) (v : Word),
    (∀ off : BitVec 8, decodeBus C dir (C.base + off.toNat) size v = .ok (decode ⟨dir, off, size, v⟩)) ∧
    (∀ addr : Nat, addr < C.base ∨ C.base + 256 ≤ addr → decodeBus C dir addr size v = .error (.outsideWindow addr))

/-- R52: each register has its own offset, a multiple of 4, and no other offset is mapped. -/
def Obligations.RegisterMapIsOneToOne : Prop :=
  (∀ r : Reg, regAt r.offset = some r ∧ r.offset.toNat % 4 = 0) ∧
  (∀ (off : BitVec 8) (r : Reg), regAt off = some r → off = r.offset) ∧
  (∀ off : BitVec 8, (0x30 ≤ off.toNat ∧ off.toNat ≤ 0x3F) ∨ 0x80 ≤ off.toNat → regAt off = none)

/-- R62, R266: the step performs the instruction the next access decodes to, on the state whose events are those after it. -/
def Obligations.StepRunsTheDecodedAccess : Prop :=
  ∀ (s : State) (a : Access) (rest : List Event), s.port = .access a :: rest →
    step s = exec (decode a) { s with port := rest }

/-- R187, R188, R266, R268: on a turn, and when no event is to come, a step performs the sequencer step of the operation in progress; with no
command in progress nothing changes. -/
def Obligations.StepRunsTheSequencer : Prop :=
  ∀ (s : State) (rest : List Event), s.fault = none → (s.port = .turn :: rest ∨ (s.port = [] ∧ rest = [])) →
    step s =
      if s.busy = true then
        (match s.OP with
          | .enc => exec .seqStepEnc { s with port := rest }
          | .dec => exec .seqStepDec { s with port := rest })
      else .next { s with port := rest }

/-! ### Reset and the fault mark -/

/-- R260, R261, R42: reset, in any state, also during a busy command and after a fault. `KEY` and `OP`, whose reset values are the model's
choice (log entry 6), are not stated. -/
def Obligations.ResetGivesEveryFieldItsResetValue : Prop :=
  ∀ (s : State) (rest : List Event), s.port = .reset :: rest →
    ∃ t, step s = .next t ∧ t.busy = false ∧ t.keyValid = false ∧ t.doutValid = false ∧ t.result.value = 0x00 ∧ t.len = 0 ∧
      t.regmap = 0 ∧ t.keyin = Vector.replicate 4 0 ∧ t.tweak = Vector.replicate 4 0 ∧ t.din = Vector.replicate 8 0 ∧
      t.dout = Vector.replicate 8 0 ∧ t.W = List.replicate config.nmax false ∧ t.TL = 0 ∧ t.NL = 0 ∧ t.I = 0 ∧
      t.fault = none ∧ t.port = rest

/-- R40: once `FAULT` is set, no instruction and no step but a reset has a meaning. -/
def Obligations.FaultedStateHasNoLaterStep : Prop :=
  ∀ (s : State) (f : Fault), s.fault = some f →
    (∀ i : Instr, exec i s = .fault f) ∧ (resetNext s = false → step s = .fault f)

/-- R232: whatever raises a fault changes nothing but `FAULT`. -/
def Obligations.FaultIsRaisedBeforeAnyChange : Prop :=
  ∀ (i : Instr) (s t : State) (f : Fault), s.fault = none → exec i s = .next t → t.fault = some f →
    t = { s with fault := some f }

/-- The model's choice: from a state without a fault every step and every instruction answers a next state. That a raise does is log
entry 2, that ill-formed terms run is log entry 11, that operands without a stated result run is log entry 12, that disabled sequencer
steps and internal operations alone run is log entries 13 and 14. -/
def Obligations.NoStepIsRefused : Prop :=
  ∀ (s : State), s.fault = none → ∃ t, step s = .next t ∧ ∀ i : Instr, ∃ u, exec i s = .next u

/-- R193: from a good state no step raises a datapath fault, for whatever cipher, padding and length bound the machine has. -/
def Obligations.StepNeverRaisesADatapathFault : Prop :=
  ∀ s t : State, Inv config s → step s = .next t → ∀ f, t.fault = some f → f.isHostFault = true

/-- R42, R43: the state after reset is good. -/
def Obligations.ResetStateIsGood : Prop := Inv config State.reset ∧ State.reset.fault = none

/-- R43, R25, R29, R33 to R35, R38, R74: every step keeps every invariant. -/
def Obligations.StepKeepsTheInvariant : Prop :=
  ∀ s t : State, Inv config s → step s = .next t → Inv config t

/-- R163: only reset takes a bit out of the registry, and reset empties it. -/
def Obligations.RegistryNeverShrinks : Prop :=
  ∀ s t : State, step s = .next t →
    (resetNext s = false → ∀ k : Nat, s.regmap.getLsbD k = true → t.regmap.getLsbD k = true) ∧
    (resetNext s = true → t.regmap = 0)

/-- R43, R23, R31: only reset clears `KEY_VALID`, and a loaded key never changes. -/
def Obligations.LoadedKeyNeverChanges : Prop :=
  ∀ s t : State, resetNext s = false → step s = .next t → s.keyValid = true → t.keyValid = true ∧ t.key = s.key

/-- R164: of the well-formed instructions only REGLEN, and LR_REGISTER which it uses, adds to the registry. -/
def Obligations.OnlyReglenRegisters : Prop :=
  ∀ (i : Instr) (s t : State), exec i s = .next t → i.wf = true → i ≠ .reglen → (∀ n, i ≠ .lrRegister n) → t.regmap = s.regmap

/-! ### Commands -/

/-- R204, R203: the first LOADKEY after reset loads and locks the key; a later one clears the staging registers and reports.
That `DOUT` and `DOUT_VALID` stay while `RESULT` changes (R24, R201) is the model's reading, against the letter of R267 (log entry 22). -/
def Obligations.LoadkeyLoadsTheKeyOnce : Prop :=
  decode ⟨.write, 0x00, 4, 0x00000001⟩ = .loadkey ∧ ∀ s : State, s.fault = none → s.busy = false →
    (s.keyValid = false →
      exec .loadkey s = .next { s with
        key := s.keyin[0] ++ s.keyin[1] ++ s.keyin[2] ++ s.keyin[3], keyValid := true,
        keyin := Vector.replicate 4 0, result := .ok }) ∧
    (s.keyValid = true →
      exec .loadkey s = .next { s with keyin := Vector.replicate 4 0, result := .keyLocked })

/-- R205, R161: an invalid length, a registered one, a new one. That `DOUT` and `DOUT_VALID` stay while `RESULT` changes (R24, R201) is the
model's reading, against the letter of R267 (log entry 22). -/
def Obligations.ReglenRegistersALength : Prop :=
  decode ⟨.write, 0x00, 4, 0x00000002⟩ = .reglen ∧ ∀ s : State, s.fault = none → s.busy = false →
    (psValid config s.len.toNat = false → exec .reglen s = .next { s with result := .invalidLength }) ∧
    (psValid config s.len.toNat = true → s.regmap.getLsbD ((s.len.toNat - 88) / 8) = true →
      exec .reglen s = .next { s with result := .alreadyRegistered }) ∧
    (psValid config s.len.toNat = true → s.regmap.getLsbD ((s.len.toNat - 88) / 8) = false →
      ∃ m : Word, exec .reglen s = .next { s with result := .registered, regmap := m } ∧
        ∀ k : Nat, m.getLsbD k = (s.regmap.getLsbD k || k == (s.len.toNat - 88) / 8))

/-- R202: an illegal command word; nothing but RESULT changes. While a command is in progress the protocol violation comes first. -/
def Obligations.IllegalCommandOnlyReports : Prop :=
  ∀ (s : State) (w : Word), s.fault = none → w ≠ 1 → w ≠ 2 → w ≠ 3 → w ≠ 4 →
    decode ⟨.write, 0x00, 4, w⟩ = .illegal w ∧
    (s.busy = false → exec (.illegal w) s = .next { s with result := .illegalCommand }) ∧
    (s.busy = true → exec (.illegal w) s = .next { s with fault := some (.hostProtocolViolation w) })

/-- R206: with no key, and then with an unregistered length, ENC and DEC end at once, their output cleared. -/
def Obligations.CryptIssueChecksInOrder : Prop :=
  ∀ (s : State) (i : Instr), i = .enc ∨ i = .dec → s.fault = none → s.busy = false →
    (s.keyValid = false →
      exec i s = .next { s with dout := Vector.replicate 8 0, doutValid := false, result := .noKey }) ∧
    (s.keyValid = true →
      (psValid config s.len.toNat = false ∨ s.regmap.getLsbD ((s.len.toNat - 88) / 8) = false) →
      exec i s = .next { s with dout := Vector.replicate 8 0, doutValid := false, result := .unregisteredLength })

/-- R207: ENC and DEC go busy. Bit `j` of the latched message is bit `j` of `DINBITS` below `n` and 0 above. -/
def Obligations.GoingBusyLatchesTheOperands : Prop :=
  ∀ s : State, s.fault = none → s.busy = false → s.keyValid = true → psValid config s.len.toNat = true →
    s.regmap.getLsbD ((s.len.toNat - 88) / 8) = true →
    ∃ W : Bits, W.length = config.nmax ∧
      (∀ j : Nat, W.getD j false = (decide (j < s.len.toNat) && (s.din.toList.getD (j / 32) 0).getLsbD (31 - j % 32))) ∧
      exec .enc s = .next { s with
        dout := Vector.replicate 8 0, doutValid := false, W := W,
        TL := s.tweak[0] ++ s.tweak[1] ++ s.tweak[2] ++ s.tweak[3], NL := s.len, OP := .enc, I := 0, result := .none, busy := true } ∧
      exec .dec s = .next { s with
        dout := Vector.replicate 8 0, doutValid := false, W := W,
        TL := s.tweak[0] ++ s.tweak[1] ++ s.tweak[2] ++ s.tweak[3], NL := s.len, OP := .dec,
        I := BitVec.ofNat 8 (psRounds config s.len.toNat - 1), result := .none, busy := true }

/-- R200, R233, R264: a command word written while a command is in progress is a protocol violation, legal word or not. -/
def Obligations.CommandWhileBusyViolatesTheProtocol : Prop :=
  ∀ (s : State) (w : Word), s.fault = none → s.busy = true →
    exec (decode ⟨.write, 0x00, 4, w⟩) s = .next { s with fault := some (.hostProtocolViolation w) }

/-! ### Register accesses -/

/-- R212, R59: a read of a readable register returns its value and changes nothing of FFXE's. -/
def Obligations.ReadReturnsTheRegister : Prop :=
  ∀ s : State, s.fault = none →
    (∃ v : Word, exec (.rd 0x04 4) s = .next { s with ret := some (.word v) } ∧
      v.getLsbD 0 = s.busy ∧ v.getLsbD 1 = s.keyValid ∧ v.getLsbD 2 = s.doutValid ∧ v.extractLsb' 3 5 = 0 ∧
      v.extractLsb' 8 8 = s.result.value ∧ v.extractLsb' 16 16 = 0) ∧
    (∃ v : Word, exec (.rd 0x08 4) s = .next { s with ret := some (.word v) } ∧
      v.extractLsb' 0 16 = s.len ∧ v.extractLsb' 16 16 = 0) ∧
    (∃ v : Word, exec (.rd 0x0C 4) s = .next { s with ret := some (.word v) } ∧
      ∀ k : Nat, v.getLsbD k = (decide (k ≤ config.kmax.val) && s.regmap.getLsbD k)) ∧
    (∀ j : Fin 4, exec (.rd (BitVec.ofNat 8 (0x20 + 4 * j.val)) 4) s = .next { s with ret := some (.word s.tweak[j]) }) ∧
    (∀ j : Fin 8, ∃ v : Word, exec (.rd (BitVec.ofNat 8 (0x40 + 4 * j.val)) 4) s = .next { s with ret := some (.word v) } ∧
      ∀ b : Nat, v.getLsbD b = (decide (4 * j.val + (31 - b) / 8 < config.nmax / 8) && s.din[j].getLsbD b)) ∧
    (∀ j : Fin 8, ∃ v : Word, exec (.rd (BitVec.ofNat 8 (0x60 + 4 * j.val)) 4) s = .next { s with ret := some (.word v) } ∧
      ∀ b : Nat, v.getLsbD b = (decide (4 * j.val + (31 - b) / 8 < config.nmax / 8) && s.dout[j].getLsbD b))

/-- R213, R58, R60: a write of a storing register stores its value, without its reserved bits, busy or not, and does nothing else; a 32-bit
write at `CMD`, also where it is spelled as a WR, is the command its word encodes. -/
def Obligations.WriteStoresTheRegister : Prop :=
  ∀ (s : State) (v : Word), s.fault = none →
    exec (.wr 0x00 4 v) s = exec (decode ⟨.write, 0x00, 4, v⟩) s ∧
    exec (.wr 0x08 4 v) s = .next { s with len := v.extractLsb' 0 16 } ∧
    (∀ j : Fin 4, exec (.wr (BitVec.ofNat 8 (0x10 + 4 * j.val)) 4 v) s = .next { s with keyin := s.keyin.set j v }) ∧
    (∀ j : Fin 4, exec (.wr (BitVec.ofNat 8 (0x20 + 4 * j.val)) 4 v) s = .next { s with tweak := s.tweak.set j v }) ∧
    (∀ j : Fin 8, ∃ u : Word, exec (.wr (BitVec.ofNat 8 (0x40 + 4 * j.val)) 4 v) s = .next { s with din := s.din.set j u } ∧
      ∀ b : Nat, u.getLsbD b = (decide (4 * j.val + (31 - b) / 8 < config.nmax / 8) && v.getLsbD b))

/-- R55: an access that is not 32 bits wide, or not at a multiple of 4. -/
def Obligations.WrongWidthOrMisalignedIsABusError : Prop :=
  ∀ (s : State) (off : BitVec 8) (size : Nat) (v : Word), s.fault = none → size ≠ 4 ∨ off.toNat % 4 ≠ 0 →
    exec (.rd off size) s = .next { s with fault := some (.busError off) } ∧
    exec (.wr off size v) s = .next { s with fault := some (.busError off) }

/-- R56, R52: an access of either direction to an offset that the register map does not list. -/
def Obligations.UnmappedAccessIsABusError : Prop :=
  ∀ (s : State) (off : BitVec 8) (size : Nat) (v : Word), s.fault = none →
    (0x30 ≤ off.toNat ∧ off.toNat ≤ 0x3F) ∨ 0x80 ≤ off.toNat →
    exec (.rd off size) s = .next { s with fault := some (.busError off) } ∧
    exec (.wr off size v) s = .next { s with fault := some (.busError off) }

/-- R57: a read of `CMD` or `KEYIN`, a write of `STATUS`, `REGMAP` or `DOUT`. -/
def Obligations.WrongDirectionIsABusError : Prop :=
  ∀ (s : State) (size : Nat) (v : Word), s.fault = none →
    (∀ off : BitVec 8, (off = 0x00 ∨ off = 0x10 ∨ off = 0x14 ∨ off = 0x18 ∨ off = 0x1C) →
      exec (.rd off size) s = .next { s with fault := some (.busError off) }) ∧
    (∀ off : BitVec 8, (off = 0x04 ∨ off = 0x0C ∨ (0x60 ≤ off.toNat ∧ off.toNat < 0x80)) →
      exec (.wr off size v) s = .next { s with fault := some (.busError off) })

/-- R241, R237, R30: no read shows anything of `KEYIN`, `KEY`, `W`, `TL`, `NL`, `OP` or `I`. -/
def Obligations.ReadsDoNotShowInternalState : Prop :=
  ∀ (s t : State) (off : BitVec 8) (size : Nat) (s' : State),
    t = { s with keyin := t.keyin, key := t.key, W := t.W, TL := t.TL, NL := t.NL, OP := t.OP, I := t.I } →
    exec (.rd off size) s = .next s' →
    ∃ t', exec (.rd off size) t = .next t' ∧ t'.ret = s'.ret ∧ t'.fault = s'.fault

/-- R190, R61: no host access, while a command is in progress, changes what the sequencer works on. -/
def Obligations.HostAccessLeavesTheBusyCommandAlone : Prop :=
  ∀ (s t : State) (a : Access), s.busy = true → exec (decode a) s = .next t →
    t.W = s.W ∧ t.TL = s.TL ∧ t.NL = s.NL ∧ t.OP = s.OP ∧ t.I = s.I ∧ t.key = s.key ∧ t.busy = true

/-- R207, R266: while a command is in progress, an operand write and a sequencer step give the same state in either order. -/
def Obligations.OperandWritesCommuteWithSequencerSteps : Prop :=
  ∀ (s : State) (r : Reg) (v : Word), Inv config s → s.fault = none → s.busy = true → r.allows .write = true → r ≠ .cmd →
    (match exec (seqInstr s) s with
      | .next t => exec (.wr r.offset 4 v) t
      | o => o) =
    (match exec (.wr r.offset 4 v) s with
      | .next u => exec (seqInstr u) u
      | o => o)

/-- R74, R75: the codes' values, and that a failure is exactly a code of 0x10 or above. -/
def Obligations.ResultCodesHaveTheirValues : Prop :=
  [ResultCode.none, .ok, .registered, .alreadyRegistered, .invalidLength, .unregisteredLength, .cipherBackendFailure, .keyLocked,
    .noKey, .illegalCommand, .invalidKeyMaterial].map ResultCode.value =
    [0x00, 0x01, 0x02, 0x03, 0x10, 0x11, 0x12, 0x13, 0x14, 0x15, 0x16] ∧
  (∀ r : ResultCode, r.isFailure = true ↔ 0x10 ≤ r.value.toNat) ∧
  (∀ r : ResultCode, r.isSuccess = true ↔ r = .ok ∨ r = .registered ∨ r = .alreadyRegistered)

/-- R78, R203, R204: the five transactions of `LOADKEY k`. That `DOUT` and `DOUT_VALID` stay while `RESULT` changes (R24, R201) is the
model's reading, against the letter of R267 (log entry 22). -/
def Obligations.PseudoLoadkeyLoadsItsKey : Prop :=
  ∀ (s : State) (k : Block), s.fault = none → s.busy = false → s.port = pseudoLoadkey k →
    Host.Core.run core 5 s = .next { s with
      port := [], keyin := Vector.replicate 4 0, keyValid := true, key := if s.keyValid = true then s.key else k,
      result := if s.keyValid = true then .keyLocked else .ok }

/-! ### Bit buffers -/

/-- R101. -/
def Obligations.SliceTakesItsRangeOrFaults : Prop :=
  ∀ (s : State) (X : Bits) (lo hi : Nat), s.fault = none →
    (lo ≤ hi ∧ hi ≤ X.length → ∃ Y : Bits, exec (.bbSlice X lo hi) s = .next { s with ret := some (.bits Y) } ∧
      Y.length = hi - lo ∧ ∀ j : Nat, j < hi - lo → Y[j]? = X[lo + j]?) ∧
    (hi < lo ∨ X.length < hi → exec (.bbSlice X lo hi) s = .next { s with fault := some (.bufferRange lo hi X.length) })

/-- R102. -/
def Obligations.ConcatPutsTheFirstOperandFirst : Prop :=
  ∀ (s : State) (X Y : Bits), s.fault = none →
    ∃ Z : Bits, exec (.bbConcat X Y) s = .next { s with ret := some (.bits Z) } ∧ Z.length = X.length + Y.length ∧
      (∀ j : Nat, j < X.length → Z[j]? = X[j]?) ∧ (∀ j : Nat, j < Y.length → Z[X.length + j]? = Y[j]?)

/-- R103. -/
def Obligations.XorIsBitwiseOrFaults : Prop :=
  ∀ (s : State) (X Y : Bits), s.fault = none →
    (X.length = Y.length → ∃ Z : Bits, exec (.bbXor X Y) s = .next { s with ret := some (.bits Z) } ∧ Z.length = X.length ∧
      ∀ j : Nat, Z.getD j false = (X.getD j false != Y.getD j false)) ∧
    (X.length ≠ Y.length → exec (.bbXor X Y) s = .next { s with fault := some (.lengthMismatch X.length Y.length) })

/-- R104. -/
def Obligations.ToBytesPacksMostSignificantFirst : Prop :=
  ∀ (s : State) (X : Bits), s.fault = none →
    ∃ out : Bytes, exec (.bbTobytes X) s = .next { s with ret := some (.bytes out) } ∧ out.length = (X.length + 7) / 8 ∧
      ∀ b m : Nat, m < 8 → (out.getD b 0).getLsbD (7 - m) = X.getD (8 * b + m) false

/-- R105. -/
def Obligations.FromBytesUnpacksOrFaults : Prop :=
  ∀ (s : State) (b : Bytes) (L : Nat), s.fault = none →
    (b.length = (L + 7) / 8 → ∃ Y : Bits, exec (.bbFrombytes b L) s = .next { s with ret := some (.bits Y) } ∧ Y.length = L ∧
      ∀ i : Nat, i < L → Y.getD i false = (b.getD (i / 8) 0).getLsbD (7 - i % 8)) ∧
    (b.length ≠ (L + 7) / 8 → exec (.bbFrombytes b L) s = .next { s with fault := some (.byteCountMismatch b.length L) })

/-- R106: the three round-trip laws. -/
def Obligations.ByteConversionsRoundTrip : Prop :=
  (∀ X : Bits, bbFrombytes (bbTobytes X) X.length = .ok X) ∧
  (∀ (b : Bytes) (L : Nat), b.length = (L + 7) / 8 → ∃ Y : Bits, bbFrombytes b L = .ok Y ∧ (bbTobytes Y).length = b.length ∧
    ∀ i m : Nat, m < 8 → ((bbTobytes Y).getD i 0).getLsbD (7 - m) = (decide (8 * i + m < L) && (b.getD i 0).getLsbD (7 - m))) ∧
  (∀ X : Bits, (bbTobytes X).length = (X.length + 7) / 8)

/-! ### The round mask -/

/-- R121: the padded string is whole blocks, at least one. That it begins with the half's bytes, for the machine's own padding, is the
model's reading (log entry 9). R13: under the default parameters the padding is PKCS#7. -/
def Obligations.PaddingExtendsToWholeBlocks : Prop :=
  (∀ (s : State) (H : Bits), s.fault = none → ∃ (q : Nat) (tail : Bytes), 1 ≤ q ∧ (bbTobytes H ++ tail).length = 16 * q ∧
    exec (.rmPad H) s = .next { s with ret := some (.bytes (bbTobytes H ++ tail)) }) ∧
  (∀ H : Bits, rmPad defaultConfig H = bbTobytes H ++
    List.replicate (16 - (bbTobytes H).length % 16) (BitVec.ofNat 8 (16 - (bbTobytes H).length % 16)))

/-- R122, R12: RM_CBC answers a value or `FAIL`; it chains its blocks, the tweak before the first, with the cipher forward. That it runs
and reads `KEY` before a LOADKEY is the model's choice (log entry 14), as is what it answers off whole blocks (log entry 12). -/
def Obligations.CbcChainsTheBlocks : Prop :=
  (∀ (s : State) (T : Block) (P : Bytes), s.fault = none →
    exec (.rmCbc T P) s = .next { s with
      ret := some (match rmCbc config s.key T P with | .ok b => .bytes b | .error _ => .fail) }) ∧
  (∀ (C : Config) (key T : Block), rmCbc C key T [] = .ok []) ∧
  (∀ (C : Config) (key T : Block) (b P : Bytes), b.length = 16 → P.length % 16 = 0 →
    rmCbc C key T (b ++ P) =
      match C.cipher key (bytesBlock b ^^^ T) with
      | none => .error .fail
      | some c =>
        match rmCbc C key c P with
        | .error e => .error e
        | .ok O => .ok (blockBytes c ++ O))

/-- R124, R120, R125: RM_MASK answers the leading bits of the cipher output or `FAIL`, and raises MaskUnderflow where the output is too
short. That it runs and reads `KEY` before a LOADKEY is the model's choice (log entry 14). -/
def Obligations.MaskIsTheLeadingBitsOfTheCipherOutput : Prop :=
  ∀ (s : State) (T : Block) (H : Bits) (m : Nat), s.fault = none →
    (m ≤ 8 * (rmPad config H).length →
      exec (.rmMask T H m) s = .next { s with
        ret := some (match rmCbc config s.key T (rmPad config H) with
          | .ok O => .bits ((O.flatMap vecBits).take m)
          | .error _ => .fail) }) ∧
    (8 * (rmPad config H).length < m →
      exec (.rmMask T H m) s =
        match rmCbc config s.key T (rmPad config H) with
        | .ok _ => .next { s with fault := some (.maskUnderflow m (8 * (rmPad config H).length)) }
        | .error _ => .next { s with ret := some .fail })

/-- R126: the engine's case, under the default padding and any cipher. The 16 bytes are read as the cipher's block under the packing of
R104: bit `i` of the block, first bit most significant, is bit `7 − i mod 8` of byte `i / 8` (R122). -/
def Obligations.EngineMaskIsOneCipherBlock : Prop :=
  (∀ (C : Config) (key T : Block) (H : Bits) (m : Nat),
    C.padExtra = defaultConfig.padExtra → C.padByte = defaultConfig.padByte → H.length = 80 → m ≤ 128 →
    rmMask C key T H m =
      match C.cipher key (bytesBlock (bbTobytes H ++ [0x06, 0x06, 0x06, 0x06, 0x06, 0x06]) ^^^ T) with
      | some c => .ok ((vecBits c).take m)
      | none => .error .fail) ∧
  (∀ b : Bytes, b.length = 16 → ∀ i : Nat, i < 128 →
    (bytesBlock b).getLsbD (127 - i) = (b.getD (i / 8) 0).getLsbD (7 - i % 8))

/-! ### Parameters and the registry -/

/-- R140 to R143. -/
def Obligations.ParameterOperationsReturnTheirFormulas : Prop :=
  ∀ (s : State) (n : Nat), s.fault = none →
    exec (.psValid n) s = .next { s with ret := some (.flag (n % 8 == 0 && decide (88 ≤ n) && decide (n ≤ config.nmax))) } ∧
    (n % 8 = 0 → 88 ≤ n → n ≤ config.nmax →
      exec (.psSplit n) s = .next { s with ret := some (.nat (n - 80)) } ∧
      exec (.psRem n) s = .next { s with ret := some (.nat 80) } ∧
      exec (.psRounds n) s = .next { s with ret := some (.nat ((4 * n + (n - 80) - 1) / (n - 80))) })

/-- R140 to R142: outside their precondition the three answer a free value of the configuration, and nothing else changes (log entry 12). -/
def Obligations.ParameterOperationsRunOutsideTheirPrecondition : Prop :=
  ∀ (s : State) (n : Nat), s.fault = none → psValid config n = false →
    exec (.psSplit n) s = .next { s with ret := some (.nat (config.splitUnstated n)) } ∧
    exec (.psRem n) s = .next { s with ret := some (.nat (config.remUnstated n)) } ∧
    exec (.psRounds n) s = .next { s with ret := some (.nat (config.roundsUnstated n)) }

/-- R144: what holds of every valid length, whatever `NMAX`. -/
def Obligations.ValidLengthsHaveSaneParameters : Prop :=
  ∀ (C : Config) (n : Nat), psValid C n = true →
    psSplit C n % 8 = 0 ∧ 8 ≤ psSplit C n ∧ psSplit C n ≤ C.nmax - 80 ∧ C.nmax - 80 ≤ 128 ∧
    psRem C n = 80 ∧ 1 ≤ psSplit C n ∧ psSplit C n ≤ n ∧ 7 ≤ psRounds C n ∧ psRounds C n ≤ 44 ∧
    4 * n ≤ psSplit C n * psRounds C n ∧ n % 8 = 0 ∧ psRem C n % 8 = 0

/-- R146: the parameter table for `NMAX = 208`; every other length is invalid. -/
def Obligations.ParameterTableForTheDefaultBound : Prop :=
  ∀ C : Config, C.kmax = 15 →
    ([88, 96, 104, 112, 120, 128, 136, 144, 152, 160, 168, 176, 184, 192, 200, 208].map fun n => (regBit n, psSplit C n, psRem C n, psRounds C n)) =
      [(0, 8, 80, 44), (1, 16, 80, 24), (2, 24, 80, 18), (3, 32, 80, 14), (4, 40, 80, 12), (5, 48, 80, 11), (6, 56, 80, 10), (7, 64, 80, 9),
        (8, 72, 80, 9), (9, 80, 80, 8), (10, 88, 80, 8), (11, 96, 80, 8), (12, 104, 80, 8), (13, 112, 80, 7), (14, 120, 80, 7), (15, 128, 80, 7)] ∧
    ∀ n : Nat, psValid C n = true ↔ n ∈ [88, 96, 104, 112, 120, 128, 136, 144, 152, 160, 168, 176, 184, 192, 200, 208]

/-- R160: the registry bit is a bijection from the valid lengths onto `0 … KMAX`. -/
def Obligations.RegistryBitIsABijection : Prop :=
  ∀ C : Config,
    (∀ n : Nat, psValid C n = true → regBit n = (n - 88) / 8 ∧ regBit n ≤ C.kmax.val) ∧
    (∀ n m : Nat, psValid C n = true → psValid C m = true → regBit n = regBit m → n = m) ∧
    (∀ k : Nat, k ≤ C.kmax.val → ∃ n, psValid C n = true ∧ regBit n = k)

/-- R161, R162: the registry's operations applied alone. -/
def Obligations.RegistryOperationsAnswer : Prop :=
  ∀ (s : State) (n : Nat), s.fault = none →
    exec (.lrEnsure n) s = .next { s with ret := some (.flag (psValid config n && s.regmap.getLsbD ((n - 88) / 8))) } ∧
    (psValid config n = false → exec (.lrRegister n) s = .next { s with ret := some (.code .invalidLength) }) ∧
    (psValid config n = true → s.regmap.getLsbD ((n - 88) / 8) = true →
      exec (.lrRegister n) s = .next { s with ret := some (.code .alreadyRegistered) }) ∧
    (psValid config n = true → s.regmap.getLsbD ((n - 88) / 8) = false →
      ∃ m : Word, exec (.lrRegister n) s = .next { s with ret := some (.code .registered), regmap := m } ∧
        ∀ k : Nat, m.getLsbD k = (s.regmap.getLsbD k || k == (n - 88) / 8))

/-! ### Rounds and sequences -/

/-- R180, R125: one forward round. That the length need only be valid, not registered, is the model's reading (log entry 8), and that it
runs before a LOADKEY its choice (log entry 14). -/
def Obligations.ForwardRoundMasksTheFirstPart : Prop :=
  ∀ (s : State) (X : Bits) (T : Block), s.fault = none → psValid config X.length = true →
    exec (.feRoundEnc X T) s = .next { s with
      ret := some (match rmMask config s.key T (X.drop (X.length - 80)) (X.length - 80) with
        | .ok F => .bits (X.drop (X.length - 80) ++ List.zipWith Bool.xor (X.take (X.length - 80)) F)
        | .error _ => .fail) }

/-- R181, R123, R125: one reverse round: the cut is at 80, the mask the forward one. That the length need only be valid, not registered, is
the model's reading (log entry 8), and that it runs before a LOADKEY its choice (log entry 14). -/
def Obligations.ReverseRoundMasksTheLastPart : Prop :=
  ∀ (s : State) (Y : Bits) (T : Block), s.fault = none → psValid config Y.length = true →
    exec (.feRoundDec Y T) s = .next { s with
      ret := some (match rmMask config s.key T (Y.take 80) (Y.length - 80) with
        | .ok F => .bits (List.zipWith Bool.xor (Y.drop 80) F ++ Y.take 80)
        | .error _ => .fail) }

/-- R182: the two rounds undo each other, for every cipher and padding. -/
def Obligations.RoundsAreInverse : Prop :=
  ∀ (C : Config) (key T : Block) (X Y : Bits), psValid C X.length = true →
    (feRoundEnc C key X T = .ok Y → Y.length = X.length ∧ feRoundDec C key Y T = .ok X) ∧
    (feRoundDec C key X T = .ok Y → Y.length = X.length ∧ feRoundEnc C key Y T = .ok X)

/-- R183, R184: the sequences are `rounds(n)` rounds, one after the other, the first failure ending them. That the length need only be
valid, not registered, is the model's reading (log entry 8), and that they run before a LOADKEY its choice (log entry 14). -/
def Obligations.SequencesAreTheirRounds : Prop :=
  ∀ (s : State) (T : Block) (X : Bits), s.fault = none → psValid config X.length = true →
    exec (.feEncrypt T X) s = .next { s with
      ret := some (match (fun r : Dp Bits => r.bind fun Z => feRoundEnc config s.key Z T)^[psRounds config X.length] (.ok X) with
        | .ok R => .bits R
        | .error _ => .fail) } ∧
    exec (.feDecrypt T X) s = .next { s with
      ret := some (match (fun r : Dp Bits => r.bind fun Z => feRoundDec config s.key Z T)^[psRounds config X.length] (.ok X) with
        | .ok R => .bits R
        | .error _ => .fail) }

/-- R186: round trip, inverse round trip and length preservation, for every cipher and padding. -/
def Obligations.SequencesRoundTrip : Prop :=
  ∀ (C : Config) (key T : Block) (X Y : Bits), psValid C X.length = true →
    (feEncrypt C key T X = .ok Y → Y.length = X.length ∧ feDecrypt C key T Y = .ok X) ∧
    (feDecrypt C key T X = .ok Y → Y.length = X.length ∧ feEncrypt C key T Y = .ok X)

/-! ### The sequencer -/

/-- R187, R210, R211: an enabled ENC step. That `I` and `OP` keep their last values past the end is the pseudo-code read to the letter
(log entry 7). -/
def Obligations.EncStepPerformsOneRound : Prop :=
  ∀ s : State, s.fault = none → s.busy = true → s.OP = .enc → s.W.length = config.nmax → psValid config s.NL.toNat = true →
    exec .seqStepEnc s =
      match feRoundEnc config s.key (s.W.take s.NL.toNat) s.TL with
      | .ok R =>
        if (s.I + 1).toNat = psRounds config s.NL.toNat then
          .next { s with
            I := s.I + 1, W := List.replicate config.nmax false, TL := 0, dout := bitsWords (R ++ zeros (config.nmax - s.NL.toNat)),
            doutValid := true, result := .ok, busy := false }
        else .next { s with I := s.I + 1, W := R ++ List.replicate (config.nmax - s.NL.toNat) false }
      | .error _ =>
        .next { s with W := List.replicate config.nmax false, TL := 0, result := .cipherBackendFailure, busy := false }

/-- R188, R210, R211: an enabled DEC step. That `I` and `OP` keep their last values past the end is the pseudo-code read to the letter
(log entry 7). -/
def Obligations.DecStepPerformsOneRound : Prop :=
  ∀ s : State, s.fault = none → s.busy = true → s.OP = .dec → s.W.length = config.nmax → psValid config s.NL.toNat = true →
    exec .seqStepDec s =
      match feRoundDec config s.key (s.W.take s.NL.toNat) s.TL with
      | .ok R =>
        if s.I = 0 then
          .next { s with
            W := List.replicate config.nmax false, TL := 0, dout := bitsWords (R ++ zeros (config.nmax - s.NL.toNat)),
            doutValid := true, result := .ok, busy := false }
        else .next { s with I := s.I - 1, W := R ++ List.replicate (config.nmax - s.NL.toNat) false }
      | .error _ =>
        .next { s with W := List.replicate config.nmax false, TL := 0, result := .cipherBackendFailure, busy := false }

/-- R187, R188: a sequencer step that is not enabled changes nothing (the model's choice, log entry 13). -/
def Obligations.DisabledSequencerStepChangesNothing : Prop :=
  ∀ s : State, s.fault = none →
    (s.busy = false ∨ s.OP = .dec → exec .seqStepEnc s = .next s) ∧
    (s.busy = false ∨ s.OP = .enc → exec .seqStepDec s = .next s)

/-- R268, R189: left to the sequencer, a busy command takes exactly the rounds it has left, a failing round ending it sooner. -/
def Obligations.BusyCommandEndsWithinItsRounds : Prop :=
  ∀ s : State, Inv config s → s.fault = none → s.busy = true → s.port = [] →
    roundsLeft config s ≤ psRounds config s.NL.toNat ∧
    (∃ t, Host.Core.run core (roundsLeft config s) s = .next t ∧ t.busy = false ∧ t.fault = none ∧
      ((t.result = .ok ∧ t.doutValid = true) ∨
        (t.result = .cipherBackendFailure ∧ t.doutValid = false ∧ t.dout = Vector.replicate 8 0))) ∧
    (∀ k < roundsLeft config s, ∃ u, Host.Core.run core k s = .next u ∧
      (u.busy = true ∨ u.result = .cipherBackendFailure))

/-- R208, R183, R210, R211: from the write of the ENC word to its end. `DOUT` holds `FE_ENCRYPT(T, X)`, or the command failed and left nothing.
What `I` is after the end is not stated (log entry 7). -/
def Obligations.EncCommandEncrypts : Prop :=
  ∀ s : State, s.fault = none → s.busy = false → s.keyValid = true → lrEnsure config s.len.toNat s.regmap = true →
    s.port = [.access ⟨.write, 0x00, 4, 0x00000003⟩] →
    ∃ i : BitVec 8, Host.Core.run core (1 + psRounds config s.len.toNat) s =
      match feEncrypt config s.key (tweakBlock s) ((dinBits config s).take s.len.toNat) with
      | .ok R => .next { s with
          port := [], W := zeros config.nmax, TL := 0, NL := s.len, OP := .enc, I := i,
          dout := bitsWords (R ++ zeros (config.nmax - s.len.toNat)), doutValid := true, result := .ok }
      | .error _ => .next { s with
          port := [], W := zeros config.nmax, TL := 0, NL := s.len, OP := .enc, I := i,
          dout := Vector.replicate 8 0, doutValid := false, result := .cipherBackendFailure }

/-- R209, R184, R210, R211: from the write of the DEC word to its end. What `I` is after the end is not stated (log entry 7). -/
def Obligations.DecCommandDecrypts : Prop :=
  ∀ s : State, s.fault = none → s.busy = false → s.keyValid = true → lrEnsure config s.len.toNat s.regmap = true →
    s.port = [.access ⟨.write, 0x00, 4, 0x00000004⟩] →
    ∃ i : BitVec 8, Host.Core.run core (1 + psRounds config s.len.toNat) s =
      match feDecrypt config s.key (tweakBlock s) ((dinBits config s).take s.len.toNat) with
      | .ok R => .next { s with
          port := [], W := zeros config.nmax, TL := 0, NL := s.len, OP := .dec, I := i,
          dout := bitsWords (R ++ zeros (config.nmax - s.len.toNat)), doutValid := true, result := .ok }
      | .error _ => .next { s with
          port := [], W := zeros config.nmax, TL := 0, NL := s.len, OP := .dec, I := i,
          dout := Vector.replicate 8 0, doutValid := false, result := .cipherBackendFailure }

/-- R214, R186: an ENC that ended OK, then a DEC of its output with the same tweak and length, gives back the message that was encrypted. -/
def Obligations.DecOfEncGivesBackTheMessage : Prop :=
  ∀ s : State, s.fault = none → s.busy = false → s.keyValid = true → lrEnsure config s.len.toNat s.regmap = true →
    s.port = [.access ⟨.write, 0x00, 4, 0x00000003⟩] →
    ∃ t, Host.Core.run core (1 + psRounds config s.len.toNat) s = .next t ∧
      (t.result = .ok → ∃ u,
        Host.Core.run core (1 + psRounds config s.len.toNat)
          { t with din := t.dout, port := [.access ⟨.write, 0x00, 4, 0x00000004⟩] } = .next u ∧
        u.result = .ok ∧ u.doutValid = true ∧
        u.dout = bitsWords ((dinBits config s).take s.len.toNat ++ zeros (config.nmax - s.len.toNat)))
end

