-- ==== Sys2Proof/Laws/State.lean ====
section
/-! SUPPORT. The fields of a state after each of the shared updates: one lemma per field per update. -/

namespace Sys2Proof.Machine

/-! ### `raise` -/

@[simp] theorem raise_busy (f : Fault) (s : State) : (raise f s).busy = s.busy := rfl
@[simp] theorem raise_keyValid (f : Fault) (s : State) : (raise f s).keyValid = s.keyValid := rfl
@[simp] theorem raise_doutValid (f : Fault) (s : State) : (raise f s).doutValid = s.doutValid := rfl
@[simp] theorem raise_result (f : Fault) (s : State) : (raise f s).result = s.result := rfl
@[simp] theorem raise_len (f : Fault) (s : State) : (raise f s).len = s.len := rfl
@[simp] theorem raise_regmap (f : Fault) (s : State) : (raise f s).regmap = s.regmap := rfl
@[simp] theorem raise_keyin (f : Fault) (s : State) : (raise f s).keyin = s.keyin := rfl
@[simp] theorem raise_tweak (f : Fault) (s : State) : (raise f s).tweak = s.tweak := rfl
@[simp] theorem raise_din (f : Fault) (s : State) : (raise f s).din = s.din := rfl
@[simp] theorem raise_dout (f : Fault) (s : State) : (raise f s).dout = s.dout := rfl
@[simp] theorem raise_key (f : Fault) (s : State) : (raise f s).key = s.key := rfl
@[simp] theorem raise_W (f : Fault) (s : State) : (raise f s).W = s.W := rfl
@[simp] theorem raise_TL (f : Fault) (s : State) : (raise f s).TL = s.TL := rfl
@[simp] theorem raise_NL (f : Fault) (s : State) : (raise f s).NL = s.NL := rfl
@[simp] theorem raise_OP (f : Fault) (s : State) : (raise f s).OP = s.OP := rfl
@[simp] theorem raise_I (f : Fault) (s : State) : (raise f s).I = s.I := rfl
@[simp] theorem raise_fault (f : Fault) (s : State) : (raise f s).fault = some f := rfl
@[simp] theorem raise_ret (f : Fault) (s : State) : (raise f s).ret = s.ret := rfl
@[simp] theorem raise_port (f : Fault) (s : State) : (raise f s).port = s.port := rfl

/-! ### `complete` -/

@[simp] theorem complete_busy (c : ResultCode) (s : State) : (complete c s).busy = false := rfl
@[simp] theorem complete_keyValid (c : ResultCode) (s : State) : (complete c s).keyValid = s.keyValid := rfl
@[simp] theorem complete_doutValid (c : ResultCode) (s : State) : (complete c s).doutValid = s.doutValid := rfl
@[simp] theorem complete_result (c : ResultCode) (s : State) : (complete c s).result = c := rfl
@[simp] theorem complete_len (c : ResultCode) (s : State) : (complete c s).len = s.len := rfl
@[simp] theorem complete_regmap (c : ResultCode) (s : State) : (complete c s).regmap = s.regmap := rfl
@[simp] theorem complete_keyin (c : ResultCode) (s : State) : (complete c s).keyin = s.keyin := rfl
@[simp] theorem complete_tweak (c : ResultCode) (s : State) : (complete c s).tweak = s.tweak := rfl
@[simp] theorem complete_din (c : ResultCode) (s : State) : (complete c s).din = s.din := rfl
@[simp] theorem complete_dout (c : ResultCode) (s : State) : (complete c s).dout = s.dout := rfl
@[simp] theorem complete_key (c : ResultCode) (s : State) : (complete c s).key = s.key := rfl
@[simp] theorem complete_W (c : ResultCode) (s : State) : (complete c s).W = s.W := rfl
@[simp] theorem complete_TL (c : ResultCode) (s : State) : (complete c s).TL = s.TL := rfl
@[simp] theorem complete_NL (c : ResultCode) (s : State) : (complete c s).NL = s.NL := rfl
@[simp] theorem complete_OP (c : ResultCode) (s : State) : (complete c s).OP = s.OP := rfl
@[simp] theorem complete_I (c : ResultCode) (s : State) : (complete c s).I = s.I := rfl
@[simp] theorem complete_fault (c : ResultCode) (s : State) : (complete c s).fault = s.fault := rfl
@[simp] theorem complete_ret (c : ResultCode) (s : State) : (complete c s).ret = s.ret := rfl
@[simp] theorem complete_port (c : ResultCode) (s : State) : (complete c s).port = s.port := rfl

/-! ### `wipe` -/

@[simp] theorem wipe_busy (C : Config) (s : State) : (wipe C s).busy = s.busy := rfl
@[simp] theorem wipe_keyValid (C : Config) (s : State) : (wipe C s).keyValid = s.keyValid := rfl
@[simp] theorem wipe_doutValid (C : Config) (s : State) : (wipe C s).doutValid = s.doutValid := rfl
@[simp] theorem wipe_result (C : Config) (s : State) : (wipe C s).result = s.result := rfl
@[simp] theorem wipe_len (C : Config) (s : State) : (wipe C s).len = s.len := rfl
@[simp] theorem wipe_regmap (C : Config) (s : State) : (wipe C s).regmap = s.regmap := rfl
@[simp] theorem wipe_keyin (C : Config) (s : State) : (wipe C s).keyin = s.keyin := rfl
@[simp] theorem wipe_tweak (C : Config) (s : State) : (wipe C s).tweak = s.tweak := rfl
@[simp] theorem wipe_din (C : Config) (s : State) : (wipe C s).din = s.din := rfl
@[simp] theorem wipe_dout (C : Config) (s : State) : (wipe C s).dout = s.dout := rfl
@[simp] theorem wipe_key (C : Config) (s : State) : (wipe C s).key = s.key := rfl
@[simp] theorem wipe_W (C : Config) (s : State) : (wipe C s).W = zeros C.nmax := rfl
@[simp] theorem wipe_TL (C : Config) (s : State) : (wipe C s).TL = 0 := rfl
@[simp] theorem wipe_NL (C : Config) (s : State) : (wipe C s).NL = s.NL := rfl
@[simp] theorem wipe_OP (C : Config) (s : State) : (wipe C s).OP = s.OP := rfl
@[simp] theorem wipe_I (C : Config) (s : State) : (wipe C s).I = s.I := rfl
@[simp] theorem wipe_fault (C : Config) (s : State) : (wipe C s).fault = s.fault := rfl
@[simp] theorem wipe_ret (C : Config) (s : State) : (wipe C s).ret = s.ret := rfl
@[simp] theorem wipe_port (C : Config) (s : State) : (wipe C s).port = s.port := rfl

/-! ### `finish` -/

@[simp] theorem finish_busy (C : Config) (s : State) : (finish C s).busy = false := rfl
@[simp] theorem finish_keyValid (C : Config) (s : State) : (finish C s).keyValid = s.keyValid := rfl
@[simp] theorem finish_doutValid (C : Config) (s : State) : (finish C s).doutValid = true := rfl
@[simp] theorem finish_result (C : Config) (s : State) : (finish C s).result = .ok := rfl
@[simp] theorem finish_len (C : Config) (s : State) : (finish C s).len = s.len := rfl
@[simp] theorem finish_regmap (C : Config) (s : State) : (finish C s).regmap = s.regmap := rfl
@[simp] theorem finish_keyin (C : Config) (s : State) : (finish C s).keyin = s.keyin := rfl
@[simp] theorem finish_tweak (C : Config) (s : State) : (finish C s).tweak = s.tweak := rfl
@[simp] theorem finish_din (C : Config) (s : State) : (finish C s).din = s.din := rfl
@[simp] theorem finish_dout (C : Config) (s : State) : (finish C s).dout = bitsWords (s.W.take s.NL.toNat ++ zeros (C.nmax - s.NL.toNat)) := rfl
@[simp] theorem finish_key (C : Config) (s : State) : (finish C s).key = s.key := rfl
@[simp] theorem finish_W (C : Config) (s : State) : (finish C s).W = zeros C.nmax := rfl
@[simp] theorem finish_TL (C : Config) (s : State) : (finish C s).TL = 0 := rfl
@[simp] theorem finish_NL (C : Config) (s : State) : (finish C s).NL = s.NL := rfl
@[simp] theorem finish_OP (C : Config) (s : State) : (finish C s).OP = s.OP := rfl
@[simp] theorem finish_I (C : Config) (s : State) : (finish C s).I = s.I := rfl
@[simp] theorem finish_fault (C : Config) (s : State) : (finish C s).fault = s.fault := rfl
@[simp] theorem finish_ret (C : Config) (s : State) : (finish C s).ret = s.ret := rfl
@[simp] theorem finish_port (C : Config) (s : State) : (finish C s).port = s.port := rfl

/-! ### `abort` -/

@[simp] theorem abort_busy (C : Config) (c : ResultCode) (s : State) : (abort C c s).busy = false := rfl
@[simp] theorem abort_keyValid (C : Config) (c : ResultCode) (s : State) : (abort C c s).keyValid = s.keyValid := rfl
@[simp] theorem abort_doutValid (C : Config) (c : ResultCode) (s : State) : (abort C c s).doutValid = s.doutValid := rfl
@[simp] theorem abort_result (C : Config) (c : ResultCode) (s : State) : (abort C c s).result = c := rfl
@[simp] theorem abort_len (C : Config) (c : ResultCode) (s : State) : (abort C c s).len = s.len := rfl
@[simp] theorem abort_regmap (C : Config) (c : ResultCode) (s : State) : (abort C c s).regmap = s.regmap := rfl
@[simp] theorem abort_keyin (C : Config) (c : ResultCode) (s : State) : (abort C c s).keyin = s.keyin := rfl
@[simp] theorem abort_tweak (C : Config) (c : ResultCode) (s : State) : (abort C c s).tweak = s.tweak := rfl
@[simp] theorem abort_din (C : Config) (c : ResultCode) (s : State) : (abort C c s).din = s.din := rfl
@[simp] theorem abort_dout (C : Config) (c : ResultCode) (s : State) : (abort C c s).dout = s.dout := rfl
@[simp] theorem abort_key (C : Config) (c : ResultCode) (s : State) : (abort C c s).key = s.key := rfl
@[simp] theorem abort_W (C : Config) (c : ResultCode) (s : State) : (abort C c s).W = zeros C.nmax := rfl
@[simp] theorem abort_TL (C : Config) (c : ResultCode) (s : State) : (abort C c s).TL = 0 := rfl
@[simp] theorem abort_NL (C : Config) (c : ResultCode) (s : State) : (abort C c s).NL = s.NL := rfl
@[simp] theorem abort_OP (C : Config) (c : ResultCode) (s : State) : (abort C c s).OP = s.OP := rfl
@[simp] theorem abort_I (C : Config) (c : ResultCode) (s : State) : (abort C c s).I = s.I := rfl
@[simp] theorem abort_fault (C : Config) (c : ResultCode) (s : State) : (abort C c s).fault = s.fault := rfl
@[simp] theorem abort_ret (C : Config) (c : ResultCode) (s : State) : (abort C c s).ret = s.ret := rfl
@[simp] theorem abort_port (C : Config) (c : ResultCode) (s : State) : (abort C c s).port = s.port := rfl

/-! ### `withFetchWord` -/

@[simp] theorem withFetchWord_busy (s : State) (nbits w : Nat) : (s.withFetchWord nbits w).busy = s.busy := rfl
@[simp] theorem withFetchWord_keyValid (s : State) (nbits w : Nat) : (s.withFetchWord nbits w).keyValid = s.keyValid := rfl
@[simp] theorem withFetchWord_doutValid (s : State) (nbits w : Nat) : (s.withFetchWord nbits w).doutValid = s.doutValid := rfl
@[simp] theorem withFetchWord_result (s : State) (nbits w : Nat) : (s.withFetchWord nbits w).result = s.result := rfl
@[simp] theorem withFetchWord_len (s : State) (nbits w : Nat) : (s.withFetchWord nbits w).len = s.len := rfl
@[simp] theorem withFetchWord_regmap (s : State) (nbits w : Nat) : (s.withFetchWord nbits w).regmap = s.regmap := rfl
@[simp] theorem withFetchWord_keyin (s : State) (nbits w : Nat) : (s.withFetchWord nbits w).keyin = s.keyin := rfl
@[simp] theorem withFetchWord_tweak (s : State) (nbits w : Nat) : (s.withFetchWord nbits w).tweak = s.tweak := rfl
@[simp] theorem withFetchWord_din (s : State) (nbits w : Nat) : (s.withFetchWord nbits w).din = s.din := rfl
@[simp] theorem withFetchWord_dout (s : State) (nbits w : Nat) : (s.withFetchWord nbits w).dout = s.dout := rfl
@[simp] theorem withFetchWord_key (s : State) (nbits w : Nat) : (s.withFetchWord nbits w).key = s.key := rfl
@[simp] theorem withFetchWord_W (s : State) (nbits w : Nat) : (s.withFetchWord nbits w).W = s.W := rfl
@[simp] theorem withFetchWord_TL (s : State) (nbits w : Nat) : (s.withFetchWord nbits w).TL = s.TL := rfl
@[simp] theorem withFetchWord_NL (s : State) (nbits w : Nat) : (s.withFetchWord nbits w).NL = s.NL := rfl
@[simp] theorem withFetchWord_OP (s : State) (nbits w : Nat) : (s.withFetchWord nbits w).OP = s.OP := rfl
@[simp] theorem withFetchWord_I (s : State) (nbits w : Nat) : (s.withFetchWord nbits w).I = s.I := rfl
@[simp] theorem withFetchWord_fault (s : State) (nbits w : Nat) : (s.withFetchWord nbits w).fault = s.fault := rfl
@[simp] theorem withFetchWord_ret (s : State) (nbits w : Nat) : (s.withFetchWord nbits w).ret = s.ret := rfl
@[simp] theorem withFetchWord_port (s : State) (nbits w : Nat) : (s.withFetchWord nbits w).port = .access ⟨.write, 0x00, if nbits ≤ 32 then 4 else nbits / 8, BitVec.ofNat 32 w⟩ :: s.port := rfl

end Sys2Proof.Machine
end

