-- ==== Sys2Proof/Laws/Ops.lean ====
section
/-! SUPPORT. What each shared operation can do, said once: performing and raising, returning a value, the register map and register
access, the command gate. -/

namespace Sys2Proof.Machine

/-! ### Performing -/

theorem perform_of_fault {s : State} {f : Fault} (body : State → Except Fault State) (h : s.fault = some f) :
    perform s body = .fault f := by
  simp [perform, h]

theorem perform_of_ok {s t : State} {body : State → Except Fault State} (h : s.fault = none) (hb : body s = .ok t) :
    perform s body = .next t := by
  simp [perform, h, hb]

theorem perform_of_error {s : State} {f : Fault} {body : State → Except Fault State} (h : s.fault = none)
    (hb : body s = .error f) : perform s body = .next (raise f s) := by
  simp [perform, h, hb]

/-- What a performed operation can answer when it answers a next state: its result, or the raised fault and nothing else. -/
theorem perform_next {s t : State} {body : State → Except Fault State} (h : perform s body = .next t) :
    s.fault = none ∧ (body s = .ok t ∨ ∃ f, body s = .error f ∧ t = raise f s) := by
  unfold perform at h
  split at h
  · cases h
  · refine ⟨‹_›, ?_⟩
    split at h
    · cases h; exact .inl ‹_›
    · cases h; exact .inr ⟨_, ‹_›, rfl⟩

/-- From a state without a fault a performed operation always answers a next state. -/
theorem perform_completes {s : State} (body : State → Except Fault State) (h : s.fault = none) :
    ∃ t, perform s body = .next t := by
  cases hb : body s with
  | ok t => exact ⟨t, perform_of_ok h hb⟩
  | error f => exact ⟨_, perform_of_error h hb⟩

/-! ### Returning -/

@[simp] theorem returns_ok (v : Value) (s : State) : returns (.ok v) s = .ok { s with ret := some v } := rfl

@[simp] theorem returns_fail (s : State) : returns (.error .fail) s = .ok { s with ret := some .fail } := rfl

@[simp] theorem returns_raised (f : Fault) (s : State) : returns (.error (.raised f)) s = .error f := rfl

/-- Returning changes nothing but `ret`. -/
theorem returns_next {r : Dp Value} {s t : State} (h : returns r s = .ok t) : ∃ v, t = { s with ret := some v } := by
  match r with
  | .ok v => cases h; exact ⟨v, rfl⟩
  | .error .fail => cases h; exact ⟨.fail, rfl⟩
  | .error (.raised f) => cases h

/-! ### The command gate -/

theorem command_of_idle {v : Word} {s : State} (body : State → State) (h : s.busy = false) :
    command v body s = .ok (body s) := by
  simp [command, h]

theorem command_of_busy {v : Word} {s : State} (body : State → State) (h : s.busy = true) :
    command v body s = .error (.hostProtocolViolation v) := by
  simp [command, h]

/-- A command that does anything is issued with no command in progress. -/
theorem command_next {v : Word} {s t : State} {body : State → State} (h : command v body s = .ok t) :
    s.busy = false ∧ t = body s := by
  unfold command at h
  split at h
  · cases h
  · rename_i hb; cases h; exact ⟨Bool.eq_false_iff.mpr hb, rfl⟩

/-! ### The register map -/

theorem regAt_offset (r : Reg) : regAt r.offset = some r := by
  cases r with
  | cmd => rfl
  | status => rfl
  | len => rfl
  | regmap => rfl
  | keyin j => revert j; decide
  | tweak j => revert j; decide
  | din j => revert j; decide
  | dout j => revert j; decide

/-- An access that reaches a register is a 32-bit access of an allowed direction at that register's offset. -/
theorem accessed_ok {dir : Dir} {off : BitVec 8} {size : Nat} {r : Reg} (h : accessed dir off size = .ok r) :
    size = 4 ∧ off.toNat % 4 = 0 ∧ regAt off = some r ∧ r.allows dir = true := by
  unfold accessed at h
  split at h
  · split at h
    · split at h
      · cases h; exact ⟨(‹_ ∧ _›).1, (‹_ ∧ _›).2, ‹_›, ‹_›⟩
      · cases h
    · cases h
  · cases h

/-- The only fault of an access is the bus error at its offset. -/
theorem accessed_error {dir : Dir} {off : BitVec 8} {size : Nat} {f : Fault} (h : accessed dir off size = .error f) :
    f = .busError off := by
  unfold accessed at h
  repeat' split at h
  all_goals cases h
  all_goals rfl

theorem offset_aligned (r : Reg) : r.offset.toNat % 4 = 0 := by
  cases r with
  | keyin j => revert j; decide
  | tweak j => revert j; decide
  | din j => revert j; decide
  | dout j => revert j; decide
  | _ => rfl

/-- Only offset 0 is `CMD`. -/
theorem regAt_cmd : ∀ off : BitVec 8, regAt off = some .cmd → off = 0x00 := by decide

theorem accessed_register (dir : Dir) (r : Reg) (h : r.allows dir = true) : accessed dir r.offset 4 = .ok r := by
  simp [accessed, offset_aligned, regAt_offset, h]

/-- A read changes nothing but `ret`. -/
theorem busRead_next {C : Config} {off : BitVec 8} {size : Nat} {s t : State} (h : busRead C off size s = .ok t) :
    ∃ v, t = { s with ret := some v } := by
  unfold busRead at h
  split at h
  · cases h; exact ⟨_, rfl⟩
  · cases h

/-- A write is a command at `CMD`, or stores into an operand register. -/
theorem busWrite_next {C : Config} {off : BitVec 8} {size : Nat} {v : Word} {s t : State}
    (h : busWrite C off size v s = .ok t) :
    (s.busy = false ∧ t = dispatchWord C v s ∧ off = 0x00 ∧ size = 4) ∨ ∃ r, t = writeReg C v s r := by
  unfold busWrite at h
  split at h
  · rename_i ha
    obtain ⟨hsz, -, hr, -⟩ := accessed_ok ha
    obtain ⟨hb, ht⟩ := command_next h
    exact .inl ⟨hb, ht, regAt_cmd off hr, hsz⟩
  · cases h; exact .inr ⟨_, rfl⟩
  · cases h

end Sys2Proof.Machine
end

