-- ==== Sys2Proof/Laws/Access.lean ====
section
/-! SUPPORT. Register accesses and command words as instructions and as steps. -/

namespace Sys2Proof.Machine

/-- A read of a readable register. -/
theorem exec_rd_register {s : State} {r : Reg} (hf : s.fault = none) (hr : r.allows .read = true) :
    exec (.rd r.offset 4) s = .next { s with ret := some (.word (readReg config s r)) } := by
  simp only [exec, execRd]
  exact perform_of_ok hf (by simp [busRead, accessed_register _ _ hr])

/-- A write of a storing register. -/
theorem exec_wr_register {s : State} {r : Reg} {v : Word} (hf : s.fault = none) (hr : r.allows .write = true) (hc : r ≠ .cmd) :
    exec (.wr r.offset 4 v) s = .next (writeReg config v s r) := by
  simp only [exec, execWr]
  exact perform_of_ok hf (by simp only [busWrite, accessed_register _ _ hr])

/-- An access that reaches no register, or not in its direction. -/
theorem exec_bus_error {s : State} {off : BitVec 8} {size : Nat} (v : Word) (hf : s.fault = none) :
    (accessed .read off size = .error (.busError off) → exec (.rd off size) s = .next (raise (.busError off) s)) ∧
    (accessed .write off size = .error (.busError off) → exec (.wr off size v) s = .next (raise (.busError off) s)) := by
  constructor <;> intro h <;> simp only [exec, execRd, execWr]
  · exact perform_of_error hf (by simp [busRead, h])
  · exact perform_of_error hf (by simp [busWrite, h])

/-- A command word's instruction is the dispatch of the word, behind the gate. -/
theorem exec_decodeWord (s : State) (w : Word) : exec (decodeWord w) s = perform s (command w (dispatchWord config w)) := by
  unfold decodeWord
  split
  · subst_vars; rfl
  split
  · subst_vars; rfl
  split
  · subst_vars; rfl
  split
  · subst_vars; rfl
  · rename_i h1 h2 h3 h4
    have : dispatchWord config w = complete .illegalCommand := by
      funext s
      simp only [dispatchWord]
      rw [if_neg h1, if_neg h2, if_neg h3, if_neg h4]
    rw [this]
    rfl

end Sys2Proof.Machine
end

