-- ==== Sys2Proof/Laws/Datapath.lean ====
section
/-! SUPPORT. What the datapath operations can do: parameters of a valid length, buffer lengths, the padded string, the mask, the rounds. -/

namespace Sys2Proof.Machine

variable (C : Config)

/-! ### Parameters -/

theorem nmax_bounds : 88 ≤ C.nmax ∧ C.nmax ≤ 208 ∧ C.nmax % 8 = 0 := by
  have := C.kmax.isLt
  simp only [Config.nmax, Config.MINLEN]
  omega

theorem psValid_iff (n : Nat) : psValid C n = true ↔ n % 8 = 0 ∧ 88 ≤ n ∧ n ≤ C.nmax := by
  simp [psValid, and_assoc]

theorem psSplit_valid {C : Config} {n : Nat} (h : psValid C n = true) : psSplit C n = n - 80 := by
  simp [psSplit, h]

theorem psRem_valid {C : Config} {n : Nat} (h : psValid C n = true) : psRem C n = 80 := by
  have := (psValid_iff C n).1 h
  simp only [psRem, h, psSplit_valid h, if_true]
  omega

theorem psRounds_valid {C : Config} {n : Nat} (h : psValid C n = true) : psRounds C n = (4 * n + (n - 80) - 1) / (n - 80) := by
  simp [psRounds, h, psSplit_valid h]

/-- A valid length has 7 to 44 rounds (R144). -/
theorem psRounds_bounds {C : Config} {n : Nat} (h : psValid C n = true) : 7 ≤ psRounds C n ∧ psRounds C n ≤ 44 := by
  have hv := (psValid_iff C n).1 h
  have hb := nmax_bounds C
  rw [psRounds_valid h, Nat.le_div_iff_mul_le (by omega)]
  refine ⟨by omega, Nat.le_of_lt_succ ((Nat.div_lt_iff_lt_mul (by omega)).2 (by omega))⟩

/-- The shortest message is valid whatever `NMAX` is. -/
theorem psValid_minLen : psValid C 88 = true := by
  have := nmax_bounds C
  rw [psValid_iff]
  omega

/-! ### Bit buffers -/

@[simp] theorem vecBits_length {w : Nat} (v : BitVec w) : (vecBits v).length = w := by simp [vecBits]

@[simp] theorem zeros_length (L : Nat) : (zeros L).length = L := by simp [zeros]

theorem bbSlice_ok {X : Bits} {lo hi : Nat} (h : lo ≤ hi ∧ hi ≤ X.length) :
    bbSlice X lo hi = .ok ((X.drop lo).take (hi - lo)) := by
  simp [bbSlice, h]

theorem bbXor_ok {X Y : Bits} (h : X.length = Y.length) : bbXor X Y = .ok (List.zipWith Bool.xor X Y) := by
  simp [bbXor, h]

@[simp] theorem bbTobytes_length (X : Bits) : (bbTobytes X).length = byteCount X.length := by simp [bbTobytes]

theorem bbFrombytes_ok {b : Bytes} {L : Nat} (h : b.length = byteCount L) :
    bbFrombytes b L = .ok ((List.range L).map fun i => (b.getD (i / 8) 0).getMsbD (i % 8)) := by
  simp [bbFrombytes, h]

/-! ### The round mask -/

/-- The padded string is whole blocks, at least one (R13). -/
theorem pad_length (b : Bytes) : (pad C b).length = 16 * padBlocks C b ∧ 1 ≤ padBlocks C b := by
  simp only [pad, List.length_append, List.length_map, List.length_range]
  unfold padBlocks
  omega

@[simp] theorem blockBytes_length (b : Block) : (blockBytes b).length = 16 := by simp [blockBytes]

/-- The chained output has as many blocks as the input. -/
theorem cbcBlocks_length {key : Block} : ∀ {Ps : List Block} {prev : Block} {cs : List Block},
    cbcBlocks C key prev Ps = some cs → cs.length = Ps.length
  | [], _, _, h => by cases h; rfl
  | P :: Ps, prev, cs, h => by
    unfold cbcBlocks at h
    split at h
    · cases h
    · simp only [Option.map_eq_some_iff] at h
      obtain ⟨ds, hd, rfl⟩ := h
      simp [cbcBlocks_length hd]

theorem blocksOf_length : ∀ (q : Nat) (P : Bytes), (blocksOf q P).length = q
  | 0, _ => rfl
  | q + 1, P => by simp [blocksOf, blocksOf_length q]

theorem flatMap_blockBytes_length (cs : List Block) : (cs.flatMap blockBytes).length = 16 * cs.length := by
  induction cs with
  | nil => rfl
  | cons c cs ih => simp [ih]; omega

/-- On whole blocks RM_CBC fails with the cipher, or answers as many bytes as it was given. -/
theorem rmCbc_cases {key T : Block} {P : Bytes} (h : P.length % 16 = 0) :
    rmCbc C key T P = .error .fail ∨ ∃ O, rmCbc C key T P = .ok O ∧ O.length = P.length := by
  simp only [rmCbc, h, if_true]
  cases hc : cbcBlocks C key T (blocksOf (P.length / 16) P) with
  | none => exact .inl rfl
  | some cs =>
    refine .inr ⟨_, rfl, ?_⟩
    rw [flatMap_blockBytes_length, cbcBlocks_length C hc, blocksOf_length]
    omega

theorem rmPad_length (H : Bits) : (rmPad C H).length % 16 = 0 ∧ 16 ≤ (rmPad C H).length := by
  have := pad_length C (bbTobytes H)
  simp only [rmPad]
  omega

/-- A mask no longer than the padded string fails with the cipher, or has the length asked for; no fault is raised (R191). -/
theorem rmMask_cases {key T : Block} {H : Bits} {m : Nat} (h : m ≤ 8 * (rmPad C H).length) :
    rmMask C key T H m = .error .fail ∨ ∃ F, rmMask C key T H m = .ok F ∧ F.length = m := by
  obtain ⟨h16, -⟩ := rmPad_length C H
  rcases rmCbc_cases C h16 (key := key) (T := T) with hf | ⟨O, hO, hl⟩
  · exact .inl (by simp [rmMask, hf])
  · have hk : O.length = byteCount (128 * ((rmPad C H).length / 16)) := by
      rw [hl]
      unfold byteCount
      omega
    have hm : rmMask C key T H m = bbSlice ((List.range (128 * ((rmPad C H).length / 16))).map
        fun i => (O.getD (i / 8) 0).getMsbD (i % 8)) 0 m := by
      simp only [rmMask, hO, bbFrombytes_ok hk]
      rw [if_neg (by omega)]
    rw [hm, bbSlice_ok (by simp; omega)]
    exact .inr ⟨_, rfl, by simp; omega⟩

/-! ### Rounds -/

/-- A round on a valid length fails with the cipher, or answers a message of the same length; no fault is raised (R191). -/
theorem feRound_cases {op : OpKind} {key T : Block} {X : Bits} (h : psValid C X.length = true) :
    feRound C op key X T = .error .fail ∨ ∃ R, feRound C op key X T = .ok R ∧ R.length = X.length := by
  have hv := (psValid_iff C _).1 h
  have hb := nmax_bounds C
  cases op with
  | enc =>
    have hm : X.length - 80 ≤ 8 * (rmPad C ((X.drop (X.length - 80)).take (X.length - (X.length - 80)))).length := by
      have := rmPad_length C ((X.drop (X.length - 80)).take (X.length - (X.length - 80)))
      omega
    simp only [feRound, feRoundEnc, psSplit_valid h]
    rw [bbSlice_ok (by omega), bbSlice_ok (by omega)]
    simp only [bind, Except.bind]
    rcases rmMask_cases C hm (key := key) (T := T) with hf | ⟨F, hF, hl⟩
    · exact .inl (by simp [hf])
    · simp only [hF]
      rw [bbXor_ok (by simp [hl])]
      refine .inr ⟨_, rfl, ?_⟩
      simp [bbConcat, hl]
  | dec =>
    have hm : X.length - 80 ≤ 8 * (rmPad C (X.take 80)).length := by
      have := rmPad_length C (X.take 80)
      omega
    simp only [feRound, feRoundDec, psSplit_valid h, psRem_valid h]
    rw [bbSlice_ok (by omega), bbSlice_ok (by omega)]
    simp only [bind, Except.bind, List.drop_zero, Nat.sub_zero]
    rcases rmMask_cases C hm (key := key) (T := T) with hf | ⟨F, hF, hl⟩
    · exact .inl (by simp [hf])
    · simp only [hF]
      rw [bbXor_ok (by simp [hl])]
      refine .inr ⟨_, rfl, ?_⟩
      simp [bbConcat, hl]
      omega

/-- A sequence of rounds on a valid length fails with the cipher, or answers a message of the same length. -/
theorem feRounds_cases {op : OpKind} {key T : Block} : ∀ (k : Nat) {X : Bits}, psValid C X.length = true →
    feRounds C op key T k X = .error .fail ∨ ∃ R, feRounds C op key T k X = .ok R ∧ R.length = X.length
  | 0, X, _ => .inr ⟨X, rfl, rfl⟩
  | k + 1, X, h => by
    rcases feRound_cases C h (op := op) (key := key) (T := T) with hf | ⟨R, hR, hl⟩
    · exact .inl (by simp [feRounds, hf])
    · simp only [feRounds, hR]
      rw [← hl] at h ⊢
      exact feRounds_cases k h

/-- One more round at the end of a sequence. -/
theorem feRounds_succ {op : OpKind} {key T : Block} : ∀ (k : Nat) (X : Bits),
    feRounds C op key T (k + 1) X =
      match feRounds C op key T k X with
      | .ok R => feRound C op key R T
      | .error e => .error e
  | 0, X => by
    simp only [feRounds]
    cases feRound C op key X T <;> rfl
  | k + 1, X => by
    have hk : ∀ j, feRounds C op key T (j + 1) X =
        match feRound C op key X T with
        | .ok R => feRounds C op key T j R
        | .error e => .error e := fun _ => rfl
    rw [hk, hk]
    cases feRound C op key X T with
    | ok R => exact feRounds_succ k R
    | error e => rfl

/-- What an enabled sequencer step does in a state whose latched length is valid and whose work buffer is whole: it ends the command on a
cipher failure, or puts the round's result in the buffer and goes on; no fault is raised (R191). -/
theorem seqStep_cases {op : OpKind} {s : State} (hb : s.busy = true) (ho : s.OP = op) (hw : s.W.length = C.nmax)
    (hv : psValid C s.NL.toNat = true) :
    (feRound C op s.key (s.W.take s.NL.toNat) s.TL = .error .fail ∧
      seqStep C op s = .ok (abort C .cipherBackendFailure s)) ∨
    ∃ R, feRound C op s.key (s.W.take s.NL.toNat) s.TL = .ok R ∧ R.length = s.NL.toNat ∧
      seqStep C op s = .ok (advance C op { s with W := R ++ zeros (C.nmax - s.NL.toNat) }) := by
  have hn := (psValid_iff C _).1 hv
  have hlen : (s.W.take s.NL.toNat).length = s.NL.toNat := by simp; omega
  have hsl : bbSlice s.W 0 s.NL.toNat = .ok (s.W.take s.NL.toNat) := by rw [bbSlice_ok (by omega)]; simp
  rcases feRound_cases C (X := s.W.take s.NL.toNat) (by rwa [hlen]) (op := op) (key := s.key) (T := s.TL) with hf | ⟨R, hR, hl⟩
  · exact .inl ⟨hf, by simp only [seqStep, hb, ho, and_self, if_true, hsl, hf]⟩
  · refine .inr ⟨R, hR, by rw [hl, hlen], ?_⟩
    simp only [seqStep, hb, ho, and_self, if_true, hsl, hR, bbConcat]

end Sys2Proof.Machine
end

