-- ==== Sys2Proof/Laws/Bits.lean ====
section
/-! SUPPORT. Buffers, words and bytes, bit by bit: what the packing of R15, R53 and R54 puts where. -/

namespace Sys2Proof.Machine

/-- Buffers of one length that agree in every bit are equal. -/
theorem bits_ext {X Y : Bits} (hl : X.length = Y.length) (h : ∀ i, i < X.length → X.getD i false = Y.getD i false) : X = Y := by
  apply List.ext_getElem hl
  intro i h1 h2
  have := h i h1
  simpa [List.getD_eq_getElem?_getD, h1, h2] using this

theorem getD_zeros (L i : Nat) : (zeros L).getD i false = false := by
  simp only [zeros, List.getD_eq_getElem?_getD, List.getElem?_replicate]
  split <;> rfl

theorem getD_drop (X : Bits) (k i : Nat) : (X.drop k).getD i false = X.getD (k + i) false := by
  simp [List.getD_eq_getElem?_getD]

theorem getD_take (X : Bits) (n i : Nat) : (X.take n).getD i false = (decide (i < n) && X.getD i false) := by
  simp only [List.getD_eq_getElem?_getD, List.getElem?_take]
  by_cases h : i < n <;> simp [h]

/-! ### A vector from its bits -/

theorem bitsNat_foldl (X : Bits) (a : Nat) : X.foldl (fun acc b => 2 * acc + b.toNat) a = a * 2 ^ X.length + bitsNat X := by
  unfold bitsNat
  induction X generalizing a with
  | nil => simp
  | cons b X ih =>
    simp only [List.foldl_cons, List.length_cons]
    rw [ih, ih (2 * 0 + b.toNat)]
    ring

theorem bitsNat_cons (b : Bool) (X : Bits) : bitsNat (b :: X) = b.toNat * 2 ^ X.length + bitsNat X := by
  have := bitsNat_foldl X (2 * 0 + b.toNat)
  simp only [bitsNat, List.foldl_cons] at *
  rw [this]
  ring

theorem bitsNat_lt (X : Bits) : bitsNat X < 2 ^ X.length := by
  induction X with
  | nil => simp [bitsNat]
  | cons b X ih =>
    rw [bitsNat_cons, List.length_cons, pow_succ]
    cases b <;> simp <;> omega

theorem bitsNat_testBit (X : Bits) (i : Nat) (h : i < X.length) : (bitsNat X).testBit (X.length - 1 - i) = X.getD i false := by
  induction X generalizing i with
  | nil => simp at h
  | cons b X ih =>
    rw [bitsNat_cons, List.length_cons, Nat.mul_comm, Nat.testBit_two_pow_mul_add _ (bitsNat_lt X)]
    cases i with
    | zero => cases b <;> simp
    | succ i =>
      simp only [List.length_cons] at h
      rw [if_pos (by omega), show X.length + 1 - 1 - (i + 1) = X.length - 1 - i by omega, ih i (by omega)]
      simp

/-- Bit `i` of a buffer is the `i`-th most significant bit of its vector (R15). -/
theorem bitsVec_bit (w : Nat) (X : Bits) (h : X.length = w) (i : Nat) (hi : i < w) :
    (bitsVec w X).getLsbD (w - 1 - i) = X.getD i false := by
  subst h
  simp only [bitsVec, BitVec.getLsbD_ofNat]
  rw [bitsNat_testBit X i hi]
  simp
  omega

/-! ### Words and bytes -/

theorem wordsBits_length (ws : List Word) : (wordsBits ws).length = 32 * ws.length := by
  induction ws with
  | nil => rfl
  | cons w ws ih =>
    simp only [wordsBits, List.flatMap_cons, List.length_append, vecBits_length, List.length_cons] at *
    omega

/-- Bit `i` of a group of registers is bit `31 − i mod 32` of word `i / 32` (R54). -/
theorem getD_wordsBits (ws : List Word) (i : Nat) :
    (wordsBits ws).getD i false = (ws.getD (i / 32) 0).getLsbD (31 - i % 32) := by
  induction ws generalizing i with
  | nil => simp [wordsBits]
  | cons w ws ih =>
    simp only [wordsBits, List.flatMap_cons] at *
    by_cases h : i < 32
    · have h0 : i / 32 = 0 := by omega
      have h1 : i % 32 = i := by omega
      rw [List.getD_append _ _ _ _ (by simpa using h)]
      simp [vecBits, h0, h1, h, List.getD_eq_getElem?_getD, BitVec.getMsbD]
    · rw [List.getD_append_right _ _ _ _ (by simpa using h)]
      have h0 : i / 32 = (i - 32) / 32 + 1 := by omega
      have h1 : i % 32 = (i - 32) % 32 := by omega
      rw [vecBits_length, ih, h0, h1]
      simp

theorem bitsWord_bit (X : Bits) (j i : Nat) (hi : i < 32) : (bitsWord X j).getLsbD (31 - i) = X.getD (32 * j + i) false := by
  have := bitsVec_bit 32 ((List.range 32).map fun i => X.getD (32 * j + i) false) (by simp) i hi
  simp only [bitsWord]
  rw [show 31 - i = 32 - 1 - i by omega, this]
  simp [List.getD_eq_getElem?_getD, hi]

theorem bitsWords_get (X : Bits) (j : Nat) : (bitsWords X).toList.getD j 0 = if j < 8 then bitsWord X j else 0 := by
  by_cases h : j < 8 <;> simp [bitsWords, h, List.getD_eq_getElem?_getD]

/-- The message registers hold the buffer put into them, 0 beyond it. -/
theorem words_of_bits (X : Bits) (h : X.length ≤ 256) : wordsBits (bitsWords X).toList = X ++ zeros (256 - X.length) := by
  apply bits_ext
  · simp [wordsBits_length]
    omega
  · intro i hi
    have : i < 256 := by simpa [wordsBits_length] using hi
    rw [getD_wordsBits, bitsWords_get, if_pos (by omega), bitsWord_bit _ _ _ (by omega), show 32 * (i / 32) + i % 32 = i by omega]
    by_cases hx : i < X.length
    · rw [List.getD_append _ _ _ _ hx]
    · rw [List.getD_append_right _ _ _ _ (by omega), getD_zeros, List.getD_eq_default _ _ (by omega)]

theorem dinBits_length (C : Config) (s : State) : (dinBits C s).length = C.nmax := by
  have := nmax_bounds C
  simp [dinBits, wordsBits_length]
  omega

/-! ### Masks -/

theorem regmapMask_bit (C : Config) (k : Nat) : (regmapMask C).getLsbD k = decide (k ≤ C.kmax.val) := by
  have := C.kmax.isLt
  simp only [regmapMask, BitVec.getLsbD_ofNat, Nat.testBit_two_pow_sub_one]
  by_cases h : k ≤ C.kmax.val <;> (simp [h]; try omega)

/-- Bit `b` of message word `j` exists when the byte it is in does (R33). -/
theorem laneMask_bit (C : Config) (j b : Nat) : (laneMask C j).getLsbD b = decide (b < 32 ∧ 4 * j + (31 - b) / 8 < C.nmax / 8) := by
  have := nmax_bounds C
  simp only [laneMask, BitVec.getLsbD_shiftLeft, BitVec.getLsbD_allOnes]
  by_cases h : b < 32
  · simp only [h, decide_true, Bool.true_and, true_and]
    rw [Bool.eq_iff_iff]
    simp
    omega
  · simp [h]

theorem regBit_le {C : Config} {n : Nat} (h : psValid C n = true) : regBit n ≤ C.kmax.val := by
  have := (psValid_iff C n).1 h
  simp only [Config.nmax, Config.MINLEN] at this
  simp only [regBit, Config.MINLEN]
  omega

/-- Setting one bit of the registry. -/
theorem setBit_bit (m : Word) (b k : Nat) (hb : b < 32) : (m ||| BitVec.ofNat 32 (2 ^ b)).getLsbD k = (m.getLsbD k || k == b) := by
  simp only [BitVec.getLsbD_or, BitVec.getLsbD_ofNat, Nat.testBit_two_pow]
  by_cases h : b = k
  · subst h
    simp [hb]
  · simp [h, Ne.symm h]

end Sys2Proof.Machine
end

