-- ==== Sys2Proof/Laws/Exec.lean ====
section
/-! SUPPORT. What an instruction can do, said once over all of them. -/

namespace Sys2Proof.Machine

/-- Every meaning is a performed operation. -/
theorem exec_eq_perform (i : Instr) (s : State) : ∃ body, exec i s = perform s body := by
  cases i <;> simp only [exec] <;> exact ⟨_, by rfl⟩

/-- The sequencer step of an operation, when it raises no fault: not enabled, or a round that failed, or a round. -/
theorem seqStep_next {C : Config} {op : OpKind} {s t : State} (h : seqStep C op s = .ok t) :
    (t = s ∧ ¬(s.busy = true ∧ s.OP = op)) ∨
    (s.busy = true ∧ s.OP = op ∧
      (t = abort C .cipherBackendFailure s ∨
        ∃ R, feRound C op s.key (s.W.take s.NL.toNat) s.TL = .ok R ∧
          t = advance C op { s with W := R ++ zeros (C.nmax - s.NL.toNat) })) := by
  unfold seqStep at h
  split at h
  · refine .inr ⟨(‹_ ∧ _›).1, (‹_ ∧ _›).2, ?_⟩
    split at h
    · cases h
    · cases h; exact .inl rfl
    · rename_i X hX
      have hX' : X = s.W.take s.NL.toNat := by
        unfold bbSlice at hX
        split at hX
        · cases hX; simp
        · cases hX
      split at h
      · cases h
      · cases h; exact .inl rfl
      · rename_i R hR
        cases h
        exact .inr ⟨R, hX' ▸ hR, rfl⟩
  · cases h; exact .inl ⟨rfl, ‹_›⟩

/-- What an instruction that answers a next state can have done: raised a fault and nothing else; returned a value; registered a length;
issued a command while none was in progress; stored into an operand register; or taken a sequencer step. -/
theorem exec_next {i : Instr} {s t : State} (h : exec i s = .next t) :
    s.fault = none ∧
    ((∃ f, t = raise f s) ∨
      (∃ v, t = { s with ret := v }) ∨
      (∃ n v, i = .lrRegister n ∧ t = { s with regmap := (lrRegister config n s.regmap).2, ret := v }) ∨
      (s.busy = false ∧ ∃ w, t = dispatchWord config w s ∧ (i = decodeWord w ∨ (∃ v, i = .illegal v) ∨ i = .wr 0x00 4 w)) ∨
      (∃ r v, t = writeReg config v s r) ∨
      (∃ op, seqStep config op s = .ok t ∧ i = match op with | .enc => .seqStepEnc | .dec => .seqStepDec)) := by
  have key : ∀ {body : State → Except Fault State}, perform s body = .next t →
      s.fault = none ∧ (body s = .ok t ∨ ∃ f, t = raise f s) := by
    intro body hp
    obtain ⟨hf, hb | ⟨f, -, ht⟩⟩ := perform_next hp
    · exact ⟨hf, .inl hb⟩
    · exact ⟨hf, .inr ⟨f, ht⟩⟩
  have cmd : ∀ {v w : Word} {body : State → State}, perform s (command v body) = .next t → body s = dispatchWord config w s →
      s.fault = none ∧ ((∃ f, t = raise f s) ∨ (s.busy = false ∧ t = dispatchWord config w s)) := by
    intro v w body hp hw
    obtain ⟨hf, hb | hb⟩ := key hp
    · obtain ⟨hn, rfl⟩ := command_next hb
      exact ⟨hf, .inr ⟨hn, hw⟩⟩
    · exact ⟨hf, .inl hb⟩
  cases i with
  | loadkey =>
    obtain ⟨hf, hr | ⟨hb, ht⟩⟩ := cmd h (w := 0x00000001) rfl
    exacts [⟨hf, .inl hr⟩, ⟨hf, .inr (.inr (.inr (.inl ⟨hb, _, ht, .inl rfl⟩)))⟩]
  | reglen =>
    obtain ⟨hf, hr | ⟨hb, ht⟩⟩ := cmd h (w := 0x00000002) rfl
    exacts [⟨hf, .inl hr⟩, ⟨hf, .inr (.inr (.inr (.inl ⟨hb, _, ht, .inl rfl⟩)))⟩]
  | enc =>
    obtain ⟨hf, hr | ⟨hb, ht⟩⟩ := cmd h (w := 0x00000003) rfl
    exacts [⟨hf, .inl hr⟩, ⟨hf, .inr (.inr (.inr (.inl ⟨hb, _, ht, .inl rfl⟩)))⟩]
  | dec =>
    obtain ⟨hf, hr | ⟨hb, ht⟩⟩ := cmd h (w := 0x00000004) rfl
    exacts [⟨hf, .inl hr⟩, ⟨hf, .inr (.inr (.inr (.inl ⟨hb, _, ht, .inl rfl⟩)))⟩]
  | illegal w =>
    obtain ⟨hf, hr | ⟨hb, ht⟩⟩ := cmd h (w := 0x00000000) rfl
    exacts [⟨hf, .inl hr⟩, ⟨hf, .inr (.inr (.inr (.inl ⟨hb, _, ht, .inr (.inl ⟨_, rfl⟩)⟩)))⟩]
  | rd off size =>
    obtain ⟨hf, hb | hb⟩ := key h
    · obtain ⟨v, rfl⟩ := busRead_next hb
      exact ⟨hf, .inr (.inl ⟨_, rfl⟩)⟩
    · exact ⟨hf, .inl hb⟩
  | wr off size v =>
    obtain ⟨hf, hb | hb⟩ := key h
    · rcases busWrite_next hb with ⟨hn, ht, rfl, rfl⟩ | ⟨r, ht⟩
      · exact ⟨hf, .inr (.inr (.inr (.inl ⟨hn, v, ht, .inr (.inr rfl)⟩)))⟩
      · exact ⟨hf, .inr (.inr (.inr (.inr (.inl ⟨r, v, ht⟩))))⟩
    · exact ⟨hf, .inl hb⟩
  | lrRegister n =>
    simp only [exec, execLrRegister] at h
    obtain ⟨hf, hb | hb⟩ := key h
    · cases hb
      exact ⟨hf, .inr (.inr (.inl ⟨n, _, rfl, rfl⟩))⟩
    · exact ⟨hf, .inl hb⟩
  | seqStepEnc =>
    obtain ⟨hf, hb | hb⟩ := key h
    exacts [⟨hf, .inr (.inr (.inr (.inr (.inr ⟨.enc, hb, rfl⟩))))⟩, ⟨hf, .inl hb⟩]
  | seqStepDec =>
    obtain ⟨hf, hb | hb⟩ := key h
    exacts [⟨hf, .inr (.inr (.inr (.inr (.inr ⟨.dec, hb, rfl⟩))))⟩, ⟨hf, .inl hb⟩]
  | bbSlice | bbConcat | bbXor | bbTobytes | bbFrombytes | rmPad | rmCbc | rmMask | psSplit | psRem | psRounds | psValid | lrEnsure
  | feRoundEnc | feRoundDec | feEncrypt | feDecrypt =>
    simp only [exec, execBbSlice, execBbConcat, execBbXor, execBbTobytes, execBbFrombytes, execRmPad, execRmCbc, execRmMask,
      execPsSplit, execPsRem, execPsRounds, execPsValid, execLrEnsure, execFeRoundEnc, execFeRoundDec, execFeEncrypt,
      execFeDecrypt] at h
    obtain ⟨hf, hb | hb⟩ := key h
    · obtain ⟨v, rfl⟩ := returns_next hb
      exact ⟨hf, .inr (.inl ⟨_, rfl⟩)⟩
    · exact ⟨hf, .inl hb⟩

/-- What a step can do: a reset, nothing but taking a turn that no command in progress uses, or performing the instruction of an access or
the sequencer's. -/
theorem step_next {s t : State} (h : step s = .next t) :
    (resetNext s = true ∧ ∃ rest, t = { State.reset with port := rest }) ∨
    (resetNext s = false ∧ s.fault = none ∧ ∃ rest,
      t = { s with port := rest } ∨
      ∃ i, exec i { s with port := rest } = .next t ∧ ((∃ a, i = decode a) ∨ (s.busy = true ∧ i = seqInstr s))) := by
  have turn : ∀ rest, turnEvent { s with port := rest } = .next t → s.fault = none ∧
      (t = { s with port := rest } ∨ ∃ i, exec i { s with port := rest } = .next t ∧
        ((∃ a, i = decode a) ∨ (s.busy = true ∧ i = seqInstr s))) := by
    intro rest hh
    unfold turnEvent at hh
    split at hh
    · cases hh
    · refine ⟨‹_›, ?_⟩
      split at hh
      · exact .inr ⟨_, hh, .inr ⟨‹_›, rfl⟩⟩
      · cases hh; exact .inl rfl
  unfold step at h
  split at h
  · rename_i hp
    have hs : s = { s with port := [] } := by rw [← hp]
    rw [hs] at h
    exact .inr ⟨by simp [resetNext, hp], (turn [] h).1, [], (turn [] h).2⟩
  · rename_i a rest hp
    have hf : s.fault = none := (exec_next h).1
    exact .inr ⟨by simp [resetNext, hp], hf, rest, .inr ⟨_, h, .inl ⟨a, rfl⟩⟩⟩
  · rename_i rest hp
    exact .inr ⟨by simp [resetNext, hp], (turn rest h).1, rest, (turn rest h).2⟩
  · rename_i rest hp
    cases h
    exact .inl ⟨by simp [resetNext, hp], rest, rfl⟩

end Sys2Proof.Machine
end

