-- ==== Sys2Proof/Laws/PerInstr.lean ====
section
/-! SUPPORT. What holds of every instruction as syntax, one lemma per constructor. -/

namespace Sys2Proof.Laws.HostForm

/-- An instruction has a host encoding exactly when a host can issue it; the others are internal (opcode table, `format`). -/
def Statement (i : Instr) : Prop := (encode i).isSome = i.isHost

theorem loadkey : Statement .loadkey := rfl
theorem reglen : Statement .reglen := rfl
theorem enc : Statement .enc := rfl
theorem dec : Statement .dec := rfl
theorem illegal (w : Word) : Statement (.illegal w) := rfl
theorem rd (off : BitVec 8) (size : Nat) : Statement (.rd off size) := rfl
theorem wr (off : BitVec 8) (size : Nat) (v : Word) : Statement (.wr off size v) := rfl
theorem bbSlice (X : Bits) (lo hi : Nat) : Statement (.bbSlice X lo hi) := rfl
theorem bbConcat (X Y : Bits) : Statement (.bbConcat X Y) := rfl
theorem bbXor (X Y : Bits) : Statement (.bbXor X Y) := rfl
theorem bbTobytes (X : Bits) : Statement (.bbTobytes X) := rfl
theorem bbFrombytes (b : Bytes) (L : Nat) : Statement (.bbFrombytes b L) := rfl
theorem rmPad (H : Bits) : Statement (.rmPad H) := rfl
theorem rmCbc (T : Block) (P : Bytes) : Statement (.rmCbc T P) := rfl
theorem rmMask (T : Block) (H : Bits) (m : Nat) : Statement (.rmMask T H m) := rfl
theorem psSplit (n : Nat) : Statement (.psSplit n) := rfl
theorem psRem (n : Nat) : Statement (.psRem n) := rfl
theorem psRounds (n : Nat) : Statement (.psRounds n) := rfl
theorem psValid (n : Nat) : Statement (.psValid n) := rfl
theorem lrRegister (n : Nat) : Statement (.lrRegister n) := rfl
theorem lrEnsure (n : Nat) : Statement (.lrEnsure n) := rfl
theorem feRoundEnc (X : Bits) (T : Block) : Statement (.feRoundEnc X T) := rfl
theorem feRoundDec (Y : Bits) (T : Block) : Statement (.feRoundDec Y T) := rfl
theorem feEncrypt (T : Block) (X : Bits) : Statement (.feEncrypt T X) := rfl
theorem feDecrypt (T : Block) (Y : Bits) : Statement (.feDecrypt T Y) := rfl
theorem seqStepEnc : Statement .seqStepEnc := rfl
theorem seqStepDec : Statement .seqStepDec := rfl

end Sys2Proof.Laws.HostForm
end

