-- ==== Sys2Proof/Tests/Slice0.lean ====
section
/-! SUPPORT. Tests. Expected values are the spec's own vectors (95_test_vectors.md, ids V-…) and worked examples, or words written out
from its encodings. The last part gives, for each statement with hypotheses, a state and operands that meet them. -/

namespace Sys2Proof.Tests

open Sys2Proof.Machine

/-! ### Helpers -/

/-- The key of the spec's vectors. -/
def K : Block := 0x0102030405060708090A0B0C0D0E0F16

/-- The tweak `57^16`. -/
def T57 : Block := 0x57575757575757575757575757575757

/-- A buffer written as a number of `n` bits, first bit most significant. -/
def buf (n v : Nat) : Bits := vecBits (BitVec.ofNat n v)

/-- The demo plaintext. -/
def demo : Bits := buf 104 0x0102030405060708090A0B0C13

/-- The 80-bit half of V-M1. -/
def half : Bits := buf 80 0x0405060708090A0B0C13

/-- The test instance ID: the identity cipher. -/
def idConfig : Config := { defaultConfig with cipher := fun _ x => some x }

/-- A cipher that always fails. -/
def failConfig : Config := { defaultConfig with cipher := fun _ _ => none }

/-- A state with a key loaded and length 88 registered, `LEN = 88`. -/
def ready : State := { State.reset with keyValid := true, len := 88, regmap := 0x00000001 }

/-- `ready` under the default parameters. -/
def readyD : State := { State.resetOf defaultConfig with keyValid := true, len := 88, regmap := 0x00000001 }

/-- An ENC of length 88 just issued. -/
def busyEnc : State := { ready with busy := true, NL := 88 }

/-- A DEC of length 88 before its last round. -/
def busyDec : State := { busyEnc with OP := .dec }

/-- A faulted state. -/
def faulted : State := { State.reset with fault := some (.busError 0x30) }

/-- Two values of a datapath operation are the same one. -/
def sameBits (r : Dp Bits) (X : Bits) : Bool :=
  match r with
  | .ok Y => Y == X
  | .error _ => false

/-- Two outcomes that are not the same value: the fault raised, if any. -/
def raised {α : Type} (r : Dp α) : Option Fault :=
  match r with
  | .error (.raised f) => some f
  | _ => none

/-! ### Well-formedness: one ill-formed term for each check -/

theorem test_wf_illegal_is_no_legal_word : Instr.wf (.illegal 0x00000002) = false := by decide
theorem test_wf_write_is_no_command : Instr.wf (.wr 0x00 4 0x00000001) = false := by decide
theorem test_wf_cbc_whole_blocks : Instr.wf (.rmCbc 0 [0x01]) = false := by decide
theorem test_wf_split_alignment : Instr.wf (.psSplit 87) = false := by decide
theorem test_wf_rem_floor : Instr.wf (.psRem 80) = false := by decide
theorem test_wf_rounds_bound : Instr.wf (.psRounds 216) = false := by decide
theorem test_wf_round_enc_length : Instr.wf (.feRoundEnc [] 0) = false := by decide
theorem test_wf_round_dec_length : Instr.wf (.feRoundDec [true] 0) = false := by decide
theorem test_wf_encrypt_length : Instr.wf (.feEncrypt 0 (zeros 80)) = false := by decide
theorem test_wf_decrypt_length : Instr.wf (.feDecrypt 0 (zeros 89)) = false := by decide

/-! ### Decoding: words written out from R70 to R72 and transactions from R77 -/

/-- RSV `000000000000000000000000`, OPC `00000001` (R71). -/
theorem test_decode_loadkey : decodeTableWord 32 0b00000000000000000000000000000001 = some .loadkey := by decide
theorem test_decode_reglen : decodeTableWord 32 0b00000000000000000000000000000010 = some .reglen := by decide
theorem test_decode_enc : decodeTableWord 32 0b00000000000000000000000000000011 = some .enc := by decide
theorem test_decode_dec : decodeTableWord 32 0b00000000000000000000000000000100 = some .dec := by decide
/-- OPC 0x05 is no command (P2). -/
theorem test_decode_illegal_opcode : decodeTableWord 32 0b00000000000000000000000000000101 = some (.illegal 0x00000005) := by decide
/-- RSV is not 0 (V-C10). -/
theorem test_decode_illegal_reserved : decodeTableWord 32 0b00000000000000000000000100000011 = some (.illegal 0x00000103) := by decide
/-- `RD STATUS` is `(0x004)` (R77). -/
theorem test_decode_rd : decode ⟨.read, 0x04, 4, 0⟩ = .rd 0x04 4 := by decide
/-- `WR LEN, 104` is `(0x008, 0x00000068)` (R77). -/
theorem test_decode_wr : decode ⟨.write, 0x08, 4, 0x00000068⟩ = .wr 0x08 4 0x00000068 := by decide
/-- An 8-bit write at `CMD` is no command (R76). -/
theorem test_decode_narrow_write : decode ⟨.write, 0x00, 1, 0x00000001⟩ = .wr 0x00 1 0x00000001 := by decide
theorem test_decode_bus_outside : decodeBus defaultConfig .read 256 4 0 = .error (.outsideWindow 256) := by decide

/-! ### The first step after reset -/

/-- The write of a command word is the first step's instruction. -/
theorem test_first_step_illegal :
    step (State.reset.withFetchWord 32 0x00000103) = .next { State.reset with result := .illegalCommand } := rfl

/-- LOADKEY loads the zero staging value (R204); length 0 is invalid (V-S6); without a key ENC and DEC report NO_KEY (V-C7). -/
theorem test_first_step_commands :
    step (State.reset.withFetchWord 32 0x00000001) = .next { State.reset with result := .ok, keyValid := true } ∧
    step (State.reset.withFetchWord 32 0x00000002) = .next { State.reset with result := .invalidLength } ∧
    step (State.reset.withFetchWord 32 0x00000003) = .next { State.reset with result := .noKey } ∧
    step (State.reset.withFetchWord 32 0x00000004) = .next { State.reset with result := .noKey } := ⟨rfl, rfl, rfl, rfl⟩

/-- With no event to come FFXE waits. -/
theorem test_reset_waits : step State.reset = .next State.reset := rfl

/-! ### Bit buffers -/

/-- V-B2. -/
theorem test_slice : sameBits (bbSlice (buf 13 0b1011001110101) 3 11) (buf 8 0x9D) = true := by decide
/-- V-B5. -/
theorem test_slice_range : raised (bbSlice (buf 13 0b1011001110101) 4 14) = some (.bufferRange 4 14 13) := by decide
/-- V-B7. -/
theorem test_concat : bbConcat (buf 5 0b10110) (buf 8 0b01110101) = buf 13 0b1011001110101 := by decide
/-- V-B9. -/
theorem test_xor : sameBits (bbXor (buf 13 0b1011001110101) (buf 13 0b1111111111111)) (buf 13 0b0100110001010) = true := by decide
/-- V-B11. -/
theorem test_xor_lengths : raised (bbXor (buf 13 0b1011001110101) (zeros 8)) = some (.lengthMismatch 13 8) := by decide
/-- V-B1. -/
theorem test_tobytes : bbTobytes (buf 13 0b1011001110101) = [0xB3, 0xA8] := by decide
/-- V-B15. -/
theorem test_frombytes : sameBits (bbFrombytes [0xB3, 0xAF] 13) (buf 13 0b1011001110101) = true := by decide
/-- V-B16. -/
theorem test_frombytes_count : raised (bbFrombytes [0xB3] 13) = some (.byteCountMismatch 1 13) := by decide

/-! ### The round mask -/

/-- V-M1. -/
theorem test_pad : rmPad defaultConfig half =
    [0x04, 0x05, 0x06, 0x07, 0x08, 0x09, 0x0A, 0x0B, 0x0C, 0x13, 0x06, 0x06, 0x06, 0x06, 0x06, 0x06] := by decide +kernel
/-- V-M3. -/
theorem test_pad_empty : rmPad defaultConfig [] = List.replicate 16 0x10 := by decide +kernel
/-- V-M6. -/
theorem test_cbc : (rmCbc defaultConfig K T57 (rmPad defaultConfig half)).toOption =
    some [0xEE, 0x4C, 0x2A, 0xAB, 0x80, 0x7F, 0x6C, 0xEE, 0xB3, 0xC6, 0x0B, 0x9A, 0x9E, 0xF9, 0x73, 0x77] := by decide +kernel
/-- V-M4. -/
theorem test_cbc_identity : (rmCbc idConfig K T57 (rmPad idConfig half)).toOption =
    some [0x53, 0x52, 0x51, 0x50, 0x5F, 0x5E, 0x5D, 0x5C, 0x5B, 0x44, 0x51, 0x51, 0x51, 0x51, 0x51, 0x51] := by decide +kernel
/-- V-M7. -/
theorem test_mask : sameBits (rmMask defaultConfig K T57 half 24) (buf 24 0xEE4C2A) = true := by decide +kernel
/-- V-M9. -/
theorem test_mask_underflow : raised (rmMask defaultConfig K T57 half 129) = some (.maskUnderflow 129 128) := by decide +kernel

/-! ### Parameters and the registry -/

/-- V-S5. -/
theorem test_split : psSplit defaultConfig 208 = 128 := by decide
theorem test_rem : psRem defaultConfig 104 = 80 := by decide
/-- V-S2: rounded up. -/
theorem test_rounds : psRounds defaultConfig 104 = 18 := by decide
/-- V-S3: exact. -/
theorem test_rounds_exact : psRounds defaultConfig 144 = 9 := by decide
/-- V-S10. -/
theorem test_valid_bound : psValid defaultConfig 216 = false := by decide
/-- V-S9. -/
theorem test_valid_alignment : psValid defaultConfig 89 = false := by decide
/-- V-R4. -/
theorem test_register : lrRegister defaultConfig 208 0x00000001 = (.registered, 0x00008001) := by decide
/-- V-R2. -/
theorem test_register_twice : lrRegister defaultConfig 104 0x00000004 = (.alreadyRegistered, 0x00000004) := by decide
/-- V-R6. -/
theorem test_ensure : lrEnsure defaultConfig 104 0x00000004 = true ∧ lrEnsure defaultConfig 112 0x00000004 = false := by decide

/-! ### Rounds and sequences -/

/-- V-F1. -/
theorem test_round_enc : sameBits (feRoundEnc defaultConfig K demo T57) (buf 104 0x0405060708090A0B0C13EF4E29) = true := by decide +kernel
/-- V-F13, round 0. -/
theorem test_round_enc_identity :
    sameBits (feRoundEnc idConfig K (buf 88 0x0102030405060708090A0B) T57) (buf 88 0x02030405060708090A0B54) = true := by decide +kernel
/-- V-F2. -/
theorem test_round_dec :
    sameBits (feRoundDec defaultConfig K (buf 104 0xB9300A30B1146566106FF1506F) T57) (buf 104 0xF17462B9300A30B1146566106F) = true := by
  decide +kernel
/-- V-F8. -/
theorem test_encrypt :
    sameBits (feEncrypt defaultConfig K 0x000102030405060708090A0B0C0D0E0F (buf 208 0x000102030405060708090A0B0C0D0E0F10111213141516171819))
      (buf 208 0xE349F33BB0F3F8F5B55E7E6E77E413CCD39C38373D59B80C8EB3) = true := by decide +kernel
/-- V-F17. -/
theorem test_encrypt_identity :
    sameBits (feEncrypt idConfig K 0x000102030405060708090A0B0C0D0E0F (buf 208 0x000102030405060708090A0B0C0D0E0F10111213141516171819))
      (buf 208 0x0C0D0405080810110A0B0E0E06060E0E1A1B1818121302020202) = true := by decide +kernel
/-- V-F17, back. -/
theorem test_decrypt :
    sameBits (feDecrypt idConfig K 0x000102030405060708090A0B0C0D0E0F (buf 208 0x0C0D0405080810110A0B0E0E06060E0E1A1B1818121302020202))
      (buf 208 0x000102030405060708090A0B0C0D0E0F10111213141516171819) = true := by decide +kernel

/-- R187: the first of the 44 steps of V-F4 counts `I` up, and keeps the bits of `W` beyond the message 0 (R35). -/
theorem test_seq_step_enc :
    (match seqStep defaultConfig .enc { readyD with busy := true, NL := 88, key := K } with
      | .ok t => t.I == 1 && t.busy && (t.W.drop 88 == zeros 120)
      | .error _ => false) = true := by decide +kernel

/-- R188: the step of round 0 ends a DEC. V-F1 backwards: its output is the demo plaintext, in `DOUT` (R54). -/
theorem test_seq_step_dec_last :
    (match seqStep defaultConfig .dec { readyD with
        busy := true, NL := 104, OP := .dec, key := K, TL := T57, W := buf 104 0x0405060708090A0B0C13EF4E29 ++ zeros 104 } with
      | .ok t => t.dout == #v[0x01020304, 0x05060708, 0x090A0B0C, 0x13000000, 0, 0, 0, 0] && statusWord t == 0x00000106 && (t.W == zeros 208)
      | .error _ => false) = true := by decide +kernel

/-- R187, R211: a failing round ends the command, and leaves no output. -/
theorem test_seq_step_enc_fails :
    (match seqStep failConfig .enc { readyD with busy := true, NL := 88 } with
      | .ok t => statusWord t == 0x00001202 && (t.dout == Vector.replicate 8 0)
      | .error _ => false) = true := by decide +kernel

/-! ### Commands and register accesses -/

/-- V-C2. -/
theorem test_loadkey : statusWord (loadKey State.reset) = 0x00000102 := by decide
/-- V-C3. -/
theorem test_loadkey_locked : statusWord (loadKey ready) = 0x00001302 ∧ (loadKey { ready with keyin := Vector.replicate 4 7 }).key = 0 := by decide
/-- P2: 89 is no length. -/
theorem test_reglen_invalid : statusWord (regLen defaultConfig { readyD with len := 89 }) = 0x00001002 := by decide
/-- V-R1 through REGLEN. -/
theorem test_reglen : (regLen defaultConfig { readyD with len := 104, regmap := 0 }).regmap = 0x00000004 := by decide
/-- V-C5: busy, no result yet. -/
theorem test_enc_issue : statusWord (issueCrypt defaultConfig .enc readyD) = 0x00000003 := by decide +kernel
/-- V-E1: the key comes before the length. -/
theorem test_enc_no_key : statusWord (issueCrypt defaultConfig .enc { readyD with keyValid := false, len := 87 }) = 0x00001400 := by decide +kernel
/-- R207: DEC starts at the last round, 43 for n = 88. -/
theorem test_dec_issue : (issueCrypt defaultConfig .dec readyD).I = 43 := by decide +kernel
/-- V-C8. -/
theorem test_dec_unregistered : statusWord (issueCrypt defaultConfig .dec { readyD with len := 104 }) = 0x00001102 := by decide +kernel
/-- V-C9. -/
theorem test_illegal : statusWord (dispatchWord defaultConfig 0x00000000 (State.resetOf defaultConfig)) = 0x00001500 := by decide
/-- V-E3. -/
theorem test_illegal_before_locked : statusWord (dispatchWord defaultConfig 0x00000101 readyD) = 0x00001502 := by decide +kernel
/-- V-C16. -/
theorem test_wr_len : (writeReg defaultConfig 0xFFFF0068 (State.resetOf defaultConfig) .len).len = 0x0068 := by decide
/-- R33: with `NMAX = 208` the low half of `DIN6` does not exist. -/
theorem test_wr_din_lanes : (writeReg defaultConfig 0xFFFFFFFF (State.resetOf defaultConfig) (.din 6)).din[6] = 0xFFFF0000 := by decide
/-- V-C12. -/
theorem test_rd_wrong_direction : execRd 0x10 4 State.reset = .next { State.reset with fault := some (.busError 0x10) } := rfl
/-- V-C14. -/
theorem test_rd_misaligned : execRd 0x06 4 State.reset = .next { State.reset with fault := some (.busError 0x06) } := rfl

/-! ### Witnesses: the hypotheses of the statements can be met -/

theorem ready_inv : Inv config ready where
  idleWiped _ := ⟨rfl, rfl⟩
  invalidOutputZero _ := rfl
  busyReady h := by cases h
  busyNoResult h := by cases h
  busyRound h := by cases h
  workLength := by simp [ready, State.reset, State.resetOf]
  workTail h := by cases h
  registryBits := by
    apply BitVec.eq_of_getLsbD_eq
    intro i _
    rw [BitVec.getLsbD_and, regmapMask_bit]
    by_cases h : i = 0 <;> simp [ready, h]
  inputLanes j := by simp [ready, State.reset, State.resetOf]
  outputTail h := by cases h
  resultProduced := by simp [ready, State.reset, State.resetOf]

theorem busyEnc_inv : Inv config busyEnc where
  idleWiped h := by cases h
  invalidOutputZero _ := rfl
  busyReady _ := ⟨rfl, by simp only [lrEnsure, busyEnc]; simp [psValid_minLen, ready, regBit], rfl⟩
  busyNoResult _ := rfl
  busyRound _ := by
    have : psValid config 88 = true := psValid_minLen config
    have := psRounds_bounds this
    show 0 < psRounds config 88
    omega
  workLength := by simp [busyEnc, ready, State.reset, State.resetOf]
  workTail _ := by simp [busyEnc, ready, State.reset, State.resetOf, zeros]
  registryBits := ready_inv.registryBits
  inputLanes j := by simp [busyEnc, ready, State.reset, State.resetOf]
  outputTail h := by cases h
  resultProduced := by simp [busyEnc, ready, State.reset, State.resetOf]

theorem witness_CommandWords : (0x00000005 : Word) ≠ 1 ∧ (0x00000005 : Word) ≠ 2 ∧ (0x00000005 : Word) ≠ 3 ∧ (0x00000005 : Word) ≠ 4 := by decide

theorem witness_Encoding :
    (Instr.isHost (.wr 0xFF 8 7) = true ∧ Instr.wf (.wr 0xFF 8 7) = true) ∧ Instr.isHost (.bbConcat [] []) = false := by decide

theorem witness_Window : (15 < ({ defaultConfig with base := 16 } : Config).base) ∧
    ({ defaultConfig with base := 16 } : Config).base + 256 ≤ 272 := by decide

theorem witness_RegisterMap : regAt 0x7C = some (.dout 7) ∧ (0x30 ≤ (0x3F : BitVec 8).toNat ∧ (0x3F : BitVec 8).toNat ≤ 0x3F) ∧
    0x80 ≤ (0x80 : BitVec 8).toNat := by decide

theorem witness_StepRunsTheDecodedAccess : (State.reset.withFetchWord 32 1).port = .access (cmdWrite 0x00000001) :: [] := rfl

theorem witness_StepRunsTheSequencer :
    (busyEnc.fault = none ∧ busyEnc.port = [] ∧ busyEnc.busy = true) ∧
    (({ ready with port := [.turn] } : State).fault = none ∧ ({ ready with port := [.turn] } : State).port = .turn :: []) := ⟨⟨rfl, rfl, rfl⟩, rfl, rfl⟩

theorem witness_Reset : ({ busyEnc with port := [.reset, .turn], fault := some (.busError 0) } : State).port = .reset :: [.turn] := rfl

theorem witness_Faulted : faulted.fault = some (.busError 0x30) ∧ resetNext faulted = false := ⟨rfl, rfl⟩

theorem witness_FaultIsRaised : State.reset.fault = none ∧
    exec (.rd 0x30 4) State.reset = .next { State.reset with fault := some (.busError 0x30) } := ⟨rfl, rfl⟩

theorem witness_NoFault : State.reset.fault = none ∧ State.reset.busy = false := ⟨rfl, rfl⟩

/-- The hypotheses of the step statements: a good state whose next event raises a fault. -/
theorem witness_StepFromAGoodState : ∃ s t, Inv config s ∧ step s = .next t ∧ t.fault = some (.busError 0x30) ∧ resetNext s = false :=
  ⟨{ ready with port := [.access ⟨.read, 0x30, 4, 0⟩] }, { ready with fault := some (.busError 0x30) },
    { ready_inv with }, rfl, rfl, rfl⟩

theorem witness_RegistryNeverShrinks : (resetNext ready = false ∧ step ready = .next ready ∧ ready.regmap.getLsbD 0 = true) ∧
    (resetNext { busyEnc with port := [.reset] } = true ∧ ∃ t, step { busyEnc with port := [.reset] } = .next t) := ⟨⟨rfl, rfl, rfl⟩, rfl, _, rfl⟩

theorem witness_LoadedKeyNeverChanges : resetNext ready = false ∧ step ready = .next ready ∧ ready.keyValid = true := ⟨rfl, rfl, rfl⟩

theorem witness_OnlyReglenRegisters : (∃ t, exec .loadkey ready = .next t) ∧ Instr.wf .loadkey = true := ⟨⟨_, rfl⟩, rfl⟩

theorem witness_Loadkey : (State.reset.fault = none ∧ State.reset.busy = false ∧ State.reset.keyValid = false) ∧
    (ready.fault = none ∧ ready.busy = false ∧ ready.keyValid = true) := ⟨⟨rfl, rfl, rfl⟩, rfl, rfl, rfl⟩

/-- REGLEN at 87, at the registered 88 and at the unregistered 88. -/
theorem witness_Reglen : psValid config 87 = false ∧ (psValid config 88 = true ∧ ready.regmap.getLsbD ((88 - 88) / 8) = true) ∧
    (psValid config 88 = true ∧ State.reset.regmap.getLsbD ((88 - 88) / 8) = false) :=
  ⟨rfl, ⟨psValid_minLen config, rfl⟩, psValid_minLen config, rfl⟩

/-- No length is valid above 208, whatever the bound. -/
theorem witness_InvalidAbove : psValid config 216 = false := by
  have := nmax_bounds config
  simp only [psValid, Bool.and_eq_false_iff]
  exact .inr (decide_eq_false (by omega))

theorem witness_CryptIssue : (State.reset.busy = false ∧ State.reset.keyValid = false) ∧
    (ready.keyValid = true ∧ psValid config ({ ready with len := 87 } : State).len.toNat = false) ∧
    (({ ready with regmap := 0 } : State).keyValid = true ∧ ({ ready with regmap := 0 } : State).regmap.getLsbD ((88 - 88) / 8) = false) :=
  ⟨⟨rfl, rfl⟩, ⟨rfl, rfl⟩, rfl, rfl⟩

theorem witness_GoingBusy : ready.fault = none ∧ ready.busy = false ∧ ready.keyValid = true ∧ psValid config ready.len.toNat = true ∧
    ready.regmap.getLsbD ((ready.len.toNat - 88) / 8) = true := ⟨rfl, rfl, rfl, psValid_minLen config, rfl⟩

theorem witness_CommandWhileBusy : busyEnc.fault = none ∧ busyEnc.busy = true := ⟨rfl, rfl⟩

/-- The words beside the legal ones. -/
theorem witness_IllegalCommand : ((0x00000000 : Word) ≠ 1 ∧ (0x00000000 : Word) ≠ 2 ∧ (0x00000000 : Word) ≠ 3 ∧ (0x00000000 : Word) ≠ 4) ∧
    ((0x00000005 : Word) ≠ 1 ∧ (0x00000005 : Word) ≠ 2 ∧ (0x00000005 : Word) ≠ 3 ∧ (0x00000005 : Word) ≠ 4) ∧
    (ready.fault = none ∧ ready.busy = false) ∧ (busyEnc.fault = none ∧ busyEnc.busy = true) := by
  refine ⟨by decide, by decide, ⟨rfl, rfl⟩, rfl, rfl⟩

/-- A wrong width, and an offset that is no multiple of 4. -/
theorem witness_WrongWidth : (8 : Nat) ≠ 4 ∧ (0x06 : BitVec 8).toNat % 4 ≠ 0 := by decide

theorem witness_Unmapped : (0x30 ≤ (0x30 : BitVec 8).toNat ∧ (0x30 : BitVec 8).toNat ≤ 0x3F) ∧ 0x80 ≤ (0xFF : BitVec 8).toNat := by decide

theorem witness_WrongDirection : 0x60 ≤ (0x60 : BitVec 8).toNat ∧ (0x7C : BitVec 8).toNat < 0x80 := by decide

theorem witness_ReadsDoNotShow :
    busyEnc = { ready with
      busy := true, keyin := busyEnc.keyin, key := busyEnc.key, W := busyEnc.W, TL := busyEnc.TL, NL := busyEnc.NL, OP := busyEnc.OP, I := busyEnc.I } ∧
    ∃ s', exec (.rd 0x04 4) { ready with busy := true } = .next s' := ⟨rfl, _, rfl⟩

theorem witness_HostAccess : busyEnc.busy = true ∧ ∃ t, exec (decode ⟨.write, 0x08, 4, 0x00000070⟩) busyEnc = .next t := ⟨rfl, _, rfl⟩

theorem witness_Commute : Inv config busyEnc ∧ busyEnc.fault = none ∧ busyEnc.busy = true ∧ Reg.allows (.din 7) .write = true ∧ Reg.din 7 ≠ .cmd :=
  ⟨busyEnc_inv, rfl, rfl, rfl, by decide⟩

theorem witness_PseudoLoadkey : ({ State.reset with port := pseudoLoadkey K } : State).port = pseudoLoadkey K ∧
    ({ State.reset with port := pseudoLoadkey K } : State).busy = false := ⟨rfl, rfl⟩

/-- BB_SLICE: the whole buffer, and one bit beyond it. -/
theorem witness_Slice : (0 ≤ 13 ∧ 13 ≤ (zeros 13).length) ∧ (zeros 13).length < 14 ∧ 3 < 9 := by decide

theorem witness_Xor : (zeros 13).length = (buf 13 1).length ∧ (zeros 13).length ≠ (zeros 8).length := by decide

theorem witness_FromBytes : [(0xB3 : Byte), 0xAF].length = (13 + 7) / 8 ∧ [(0xB3 : Byte)].length ≠ (13 + 7) / 8 := by decide

theorem witness_Cbc : (List.replicate 16 (0x06 : Byte)).length = 16 ∧ ([] : Bytes).length % 16 = 0 := by decide

/-- RM_MASK: the most bits that are there, and one more. -/
theorem witness_Mask : ∃ m, m ≤ 8 * (rmPad config []).length ∧ 8 * (rmPad config []).length < m + 1 := ⟨_, le_rfl, Nat.lt_succ_self _⟩

theorem witness_EngineMask :
    (idConfig.padExtra = defaultConfig.padExtra ∧ idConfig.padByte = defaultConfig.padByte ∧ half.length = 80 ∧ 128 ≤ 128) ∧
    (List.replicate 16 (0x06 : Byte)).length = 16 ∧ 127 < 128 :=
  ⟨⟨rfl, rfl, rfl, le_rfl⟩, rfl, by decide⟩

theorem witness_Parameters : 88 % 8 = 0 ∧ 88 ≤ 88 ∧ 88 ≤ config.nmax ∧ psValid config 80 = false :=
  ⟨rfl, le_rfl, (nmax_bounds config).1, rfl⟩

theorem witness_ValidLengths : psValid defaultConfig 88 = true ∧ psValid defaultConfig 208 = true ∧ defaultConfig.kmax = 15 := by decide

theorem witness_RegistryBit : psValid defaultConfig 200 = true ∧ 15 ≤ defaultConfig.kmax.val := by decide

theorem witness_Rounds : psValid config (zeros 88).length = true := psValid_minLen config

/-- Both directions of the round equivalence are met. -/
theorem witness_RoundsAreInverse : psValid idConfig (zeros 88).length = true ∧ sameBits (feRoundEnc idConfig 0 (zeros 88) 0) (zeros 88) = true ∧
    sameBits (feRoundDec idConfig 0 (zeros 88) 0) (zeros 88) = true := by decide +kernel

theorem witness_SequencesRoundTrip : ∃ X Y, psValid idConfig X.length = true ∧ sameBits (feEncrypt idConfig K 0x000102030405060708090A0B0C0D0E0F X) Y = true ∧
    psValid idConfig Y.length = true ∧ sameBits (feDecrypt idConfig K 0x000102030405060708090A0B0C0D0E0F Y) X = true :=
  ⟨_, _, by decide +kernel, test_encrypt_identity, by decide +kernel, test_decrypt⟩

theorem witness_EncStep : busyEnc.fault = none ∧ busyEnc.busy = true ∧ busyEnc.OP = .enc ∧ busyEnc.W.length = config.nmax ∧
    psValid config busyEnc.NL.toNat = true := ⟨rfl, rfl, rfl, busyEnc_inv.workLength, psValid_minLen config⟩

theorem witness_DecStep : busyDec.fault = none ∧ busyDec.busy = true ∧ busyDec.OP = .dec ∧ busyDec.W.length = config.nmax ∧
    psValid config busyDec.NL.toNat = true ∧ busyDec.I = 0 := ⟨rfl, rfl, rfl, busyEnc_inv.workLength, psValid_minLen config, rfl⟩

theorem witness_DisabledStep : ready.busy = false ∧ busyDec.OP = .dec ∧ busyEnc.OP = .enc := ⟨rfl, rfl, rfl⟩

theorem witness_BusyCommandEnds : Inv config busyEnc ∧ busyEnc.fault = none ∧ busyEnc.busy = true ∧ busyEnc.port = [] :=
  ⟨busyEnc_inv, rfl, rfl, rfl⟩

theorem witness_CommandRuns : ∃ s : State, s.fault = none ∧ s.busy = false ∧ s.keyValid = true ∧ lrEnsure config s.len.toNat s.regmap = true ∧
    s.port = [.access ⟨.write, 0x00, 4, 0x00000003⟩] :=
  ⟨{ ready with port := [.access ⟨.write, 0x00, 4, 0x00000003⟩] }, rfl, rfl, rfl,
    by simp only [lrEnsure, ready]; simp [psValid_minLen, regBit], rfl⟩

theorem witness_DecCommandRuns : ∃ s : State, s.fault = none ∧ s.busy = false ∧ s.keyValid = true ∧ lrEnsure config s.len.toNat s.regmap = true ∧
    s.port = [.access ⟨.write, 0x00, 4, 0x00000004⟩] :=
  ⟨{ ready with port := [.access ⟨.write, 0x00, 4, 0x00000004⟩] }, rfl, rfl, rfl,
    by simp only [lrEnsure, ready]; simp [psValid_minLen, regBit], rfl⟩

end Sys2Proof.Tests
end

section
/-! SUPPORT. Proofs about reset and the fault mark (R40, R42, R260), the loaded key (R43 item 5), and the invariant every step keeps (R43). -/

namespace Sys2Proof.Machine

/-! ### Reset -/

theorem step_of_reset {s : State} {rest : List Event} (hp : s.port = .reset :: rest) :
    step s = .next { State.reset with port := rest } := by
  simp [step, resetEvent, hp]

/-- Settles O7: a reset event answers the reset state with the later events kept, whatever the state before. -/
theorem resetGivesEveryFieldItsResetValue : Obligations.ResetGivesEveryFieldItsResetValue := by
  unfold Obligations.ResetGivesEveryFieldItsResetValue
  intro s rest hp
  exact ⟨_, step_of_reset hp, rfl, rfl, rfl, rfl, rfl, rfl, rfl, rfl, rfl, rfl, rfl, rfl, rfl, rfl, rfl, rfl⟩

/-- The reset state is idle with everything wiped, so every clause about a command or an output is met (R42, R43). -/
theorem inv_resetOf (C : Config) : Inv C (State.resetOf C) where
  idleWiped _ := ⟨rfl, rfl⟩
  invalidOutputZero _ := rfl
  busyReady := nofun
  busyNoResult := nofun
  busyRound := nofun
  workLength := zeros_length C.nmax
  workTail := nofun
  registryBits := BitVec.zero_and
  inputLanes j := by simp [State.resetOf]
  outputTail := nofun
  resultProduced := nofun

/-- Settles O12: the reset state of the machine is the reset state of its parameters. -/
theorem resetStateIsGood : Obligations.ResetStateIsGood :=
  ⟨inv_resetOf config, rfl⟩

/-! ### The fault mark -/

theorem exec_of_fault {s : State} {f : Fault} (i : Instr) (hf : s.fault = some f) : exec i s = .fault f := by
  obtain ⟨body, hbody⟩ := exec_eq_perform i s
  rw [hbody, perform_of_fault body hf]

theorem turnEvent_of_fault {s : State} {f : Fault} (hf : s.fault = some f) : turnEvent s = .fault f := by
  simp [turnEvent, hf]

/-- Settles O8, by the next event: an access is an instruction, a turn asks for the fault first, and a reset is excluded. -/
theorem faultedStateHasNoLaterStep : Obligations.FaultedStateHasNoLaterStep := by
  unfold Obligations.FaultedStateHasNoLaterStep
  intro s f hf
  refine ⟨fun i => exec_of_fault i hf, fun hreset => ?_⟩
  unfold step
  split
  case h_1 => exact turnEvent_of_fault hf
  case h_2 a rest _ => exact exec_of_fault (s := { s with port := rest }) (decode a) hf
  case h_3 rest _ => exact turnEvent_of_fault (s := { s with port := rest }) hf
  case h_4 rest hp => simp [resetNext, hp] at hreset

/-! ### What a command, a registration and a round can do -/

/-- The four effects a command word can have (R200): those of the two immediate commands, an issue, or ILLEGAL_COMMAND. -/
theorem dispatchWord_cases (C : Config) (w : Word) (s : State) :
    dispatchWord C w s = loadKey s ∨ dispatchWord C w s = regLen C s ∨
      (∃ op, dispatchWord C w s = issueCrypt C op s) ∨ dispatchWord C w s = complete .illegalCommand s := by
  unfold dispatchWord
  split
  · exact .inl rfl
  split
  · exact .inr (.inl rfl)
  split
  · exact .inr (.inr (.inl ⟨.enc, rfl⟩))
  split
  · exact .inr (.inr (.inl ⟨.dec, rfl⟩))
  · exact .inr (.inr (.inr rfl))

/-- The state whose output is cleared, as every issue of ENC or DEC leaves it before its checks (R206). -/
def clearOutput (s : State) : State := { s with dout := Vector.replicate 8 0, doutValid := false }

/-- An issue clears the output, and then either a check fails or, with a key and a registered length, the command goes busy (R206). -/
theorem issueCrypt_cases (C : Config) (op : OpKind) (s : State) :
    issueCrypt C op s = complete .noKey (clearOutput s) ∨
    issueCrypt C op s = complete .unregisteredLength (clearOutput s) ∨
    (s.keyValid = true ∧ lrEnsure C s.len.toNat s.regmap = true ∧ issueCrypt C op s = goBusy C op (clearOutput s)) := by
  cases hk : s.keyValid with
  | false => exact .inl (by simp [issueCrypt, clearOutput, hk])
  | true =>
    cases hl : lrEnsure C s.len.toNat s.regmap with
    | false => exact .inr (.inl (by simp [issueCrypt, clearOutput, hk, hl]))
    | true => exact .inr (.inr ⟨rfl, rfl, by simp [issueCrypt, clearOutput, hk, hl]⟩)

/-- A registration leaves the registry alone, or adds the bit of a valid length (R161). -/
theorem lrRegister_cases (C : Config) (n : Nat) (m : Word) :
    lrRegister C n m = (.invalidLength, m) ∨ lrRegister C n m = (.alreadyRegistered, m) ∨
      (psValid C n = true ∧ lrRegister C n m = (.registered, m ||| BitVec.ofNat 32 (2 ^ regBit n))) := by
  cases hv : psValid C n with
  | false => exact .inl (by simp [lrRegister, hv])
  | true =>
    cases hb : m.getLsbD (regBit n) with
    | true => exact .inr (.inl (by simp [lrRegister, hv, hb]))
    | false => exact .inr (.inr ⟨rfl, by simp [lrRegister, hv, hb]⟩)

/-- The registry never shrinks under a registration (R163). -/
theorem lrRegister_keeps_bit (C : Config) (n : Nat) {m : Word} {k : Nat} (hk : m.getLsbD k = true) :
    (lrRegister C n m).2.getLsbD k = true := by
  obtain h | h | ⟨-, h⟩ := lrRegister_cases C n m <;> simp [h, hk]

/-- A registered length stays registered under a registration. -/
theorem lrEnsure_lrRegister {C : Config} {k : Nat} {m : Word} (n : Nat) (h : lrEnsure C k m = true) :
    lrEnsure C k (lrRegister C n m).2 = true := by
  obtain ⟨hv, hk⟩ : psValid C k = true ∧ m.getLsbD (regBit k) = true := by simpa [lrEnsure] using h
  simp [lrEnsure, hv, lrRegister_keeps_bit C n hk]

theorem psValid_of_lrEnsure {C : Config} {n : Nat} {m : Word} (h : lrEnsure C n m = true) : psValid C n = true := by
  obtain ⟨hv, -⟩ := Bool.and_eq_true_iff.mp h
  exact hv

/-- A registration adds no bit above `KMAX` (R29). -/
theorem lrRegister_and_regmapMask {C : Config} {m : Word} (n : Nat) (h : m &&& regmapMask C = m) :
    (lrRegister C n m).2 &&& regmapMask C = (lrRegister C n m).2 := by
  obtain hr | hr | ⟨hv, hr⟩ := lrRegister_cases C n m
  · rwa [hr]
  · rwa [hr]
  · have hbit : BitVec.ofNat 32 (2 ^ regBit n) &&& regmapMask C = BitVec.ofNat 32 (2 ^ regBit n) := by
      have hle := regBit_le hv
      apply BitVec.eq_of_getLsbD_eq
      intro k _
      rw [BitVec.getLsbD_and, regmapMask_bit, BitVec.getLsbD_ofNat, Nat.testBit_two_pow]
      by_cases hk : regBit n = k <;> simp [hk]
      omega
    rw [hr, BitVec.and_or_distrib_right, h, hbit]

theorem lrRegister_code_produced (C : Config) (n : Nat) (m : Word) : (lrRegister C n m).1 ≠ .invalidKeyMaterial := by
  obtain h | h | ⟨-, h⟩ := lrRegister_cases C n m <;> simp [h]

/-- The counter starts at the index of a round of the command (R207). -/
theorem firstRound_lt {C : Config} {n : Nat} (op : OpKind) (hv : psValid C n = true) : (firstRound C op n).toNat < psRounds C n := by
  obtain ⟨hlo, hhi⟩ := psRounds_bounds hv
  cases op with
  | enc => exact Nat.zero_lt_of_lt hlo
  | dec => simp only [firstRound, BitVec.toNat_ofNat]; omega

/-- A round that succeeds on a valid length answers a message of that length. -/
theorem feRound_length {C : Config} {op : OpKind} {key T : Block} {X R : Bits}
    (hv : psValid C X.length = true) (h : feRound C op key X T = .ok R) : R.length = X.length := by
  obtain hfail | ⟨R', hok, hlen⟩ := feRound_cases C hv (op := op) (key := key) (T := T)
  · exact nomatch h.symm.trans hfail
  · cases h.symm.trans hok; exact hlen

/-- After a round the command finishes, or goes on with an index that is still one of its rounds (R187, R188). -/
theorem advance_cases (C : Config) (op : OpKind) (s : State) :
    (∃ i, advance C op s = finish C { s with I := i }) ∨
    ∃ i, advance C op s = { s with I := i } ∧
      (s.I.toNat < psRounds C s.NL.toNat → i.toNat < psRounds C s.NL.toNat) := by
  cases op with
  | enc =>
    by_cases hlast : (s.I + 1).toNat = psRounds C s.NL.toNat
    · exact .inl ⟨s.I + 1, by simp only [advance, if_pos hlast]⟩
    · refine .inr ⟨s.I + 1, by simp only [advance, if_neg hlast], fun hi => ?_⟩
      bv_omega
  | dec =>
    by_cases hlast : s.I = 0
    · exact .inl ⟨s.I, by simp only [advance, if_pos hlast]⟩
    · refine .inr ⟨s.I - 1, by simp only [advance, if_neg hlast], fun hi => ?_⟩
      bv_omega

/-! ### The loaded key -/

theorem advance_keeps_key (C : Config) (op : OpKind) (s : State) :
    (advance C op s).keyValid = s.keyValid ∧ (advance C op s).key = s.key := by
  obtain ⟨i, h⟩ | ⟨i, h, -⟩ := advance_cases C op s <;> simp [h]

theorem writeReg_keeps_key (C : Config) (v : Word) (s : State) (r : Reg) :
    (writeReg C v s r).keyValid = s.keyValid ∧ (writeReg C v s r).key = s.key := by
  cases r <;> exact ⟨rfl, rfl⟩

theorem seqStep_keeps_key {C : Config} {op : OpKind} {s t : State} (h : seqStep C op s = .ok t) :
    t.keyValid = s.keyValid ∧ t.key = s.key := by
  obtain ⟨rfl, -⟩ | ⟨-, -, rfl | ⟨R, -, rfl⟩⟩ := seqStep_next h
  · exact ⟨rfl, rfl⟩
  · exact ⟨rfl, rfl⟩
  · exact advance_keeps_key C op _

/-- Of the commands only LOADKEY touches the key, and it does not once one is loaded (R203, R204). -/
theorem dispatchWord_keeps_loaded_key (C : Config) (w : Word) {s : State} (hk : s.keyValid = true) :
    (dispatchWord C w s).keyValid = true ∧ (dispatchWord C w s).key = s.key := by
  obtain h | h | ⟨op, h⟩ | h := dispatchWord_cases C w s
  · simp [h, loadKey, hk]
  · simp [h, regLen, hk]
  · obtain hi | hi | ⟨-, -, hi⟩ := issueCrypt_cases C op s <;> simp [h, hi, clearOutput, goBusy, hk]
  · simp [h, hk]

theorem exec_keeps_loaded_key {i : Instr} {s t : State} (h : exec i s = .next t) (hk : s.keyValid = true) :
    t.keyValid = true ∧ t.key = s.key := by
  obtain ⟨-, ⟨f, rfl⟩ | ⟨v, rfl⟩ | ⟨n, v, -, rfl⟩ | ⟨-, w, rfl, -⟩ | ⟨r, v, rfl⟩ | ⟨op, hseq, -⟩⟩ := exec_next h
  · exact ⟨hk, rfl⟩
  · exact ⟨hk, rfl⟩
  · exact ⟨hk, rfl⟩
  · exact dispatchWord_keeps_loaded_key config w hk
  · exact hk ▸ writeReg_keeps_key config v s r
  · exact hk ▸ seqStep_keeps_key hseq

/-- Settles O15: a step that is no reset takes an event off the port, and performs at most one instruction. -/
theorem loadedKeyNeverChanges : Obligations.LoadedKeyNeverChanges := by
  unfold Obligations.LoadedKeyNeverChanges
  intro s t hreset hstep hk
  obtain ⟨hr, -⟩ | ⟨-, -, rest, rfl | ⟨i, hexec, -⟩⟩ := step_next hstep
  · exact nomatch hreset.symm.trans hr
  · exact ⟨hk, rfl⟩
  · exact exec_keeps_loaded_key (s := { s with port := rest }) hexec hk

/-! ### The invariant under each operation -/

section
variable {C : Config} {s : State}

/-- An immediate command ends with no command in progress, so the round state was wiped before it. -/
theorem inv_complete {c : ResultCode} (hi : Inv C s) (hb : s.busy = false) (hc : c ≠ .invalidKeyMaterial) :
    Inv C (complete c s) :=
  { hi with
    idleWiped := fun _ => hi.idleWiped hb
    busyReady := nofun
    busyNoResult := nofun
    busyRound := nofun
    workTail := nofun
    resultProduced := hc }

theorem inv_register (n : Nat) (hi : Inv C s) : Inv C { s with regmap := (lrRegister C n s.regmap).2 } :=
  { hi with
    busyReady := fun hb =>
      have ⟨hkey, hlen, hout⟩ := hi.busyReady hb
      ⟨hkey, lrEnsure_lrRegister n hlen, hout⟩
    registryBits := lrRegister_and_regmapMask n hi.registryBits }

theorem inv_loadKey (hi : Inv C s) (hb : s.busy = false) : Inv C (loadKey s) := by
  unfold loadKey
  split
  · exact inv_complete { hi with } hb nofun
  · exact inv_complete { hi with busyReady := fun h => nomatch hb.symm.trans h } hb nofun

theorem inv_regLen (hi : Inv C s) (hb : s.busy = false) : Inv C (regLen C s) :=
  inv_complete (inv_register s.len.toNat hi) hb (lrRegister_code_produced C _ _)

theorem inv_clearOutput (hi : Inv C s) (hb : s.busy = false) : Inv C (clearOutput s) :=
  { hi with
    invalidOutputZero := fun _ => rfl
    busyReady := fun h => nomatch hb.symm.trans h
    outputTail := nofun }

/-- Going busy puts a message of the issued length and zeros behind it into `W` (R207). -/
theorem inv_goBusy (op : OpKind) (hi : Inv C s) (hk : s.keyValid = true)
    (hl : lrEnsure C s.len.toNat s.regmap = true) (ho : s.doutValid = false) : Inv C (goBusy C op s) := by
  have hv := psValid_of_lrEnsure hl
  obtain ⟨-, -, hmax⟩ := (psValid_iff C _).1 hv
  have hmsg : ((dinBits C s).take s.len.toNat).length = s.len.toNat := by simp [dinBits_length, hmax]
  exact
    { hi with
      idleWiped := nofun
      busyReady := fun _ => ⟨hk, hl, ho⟩
      busyNoResult := fun _ => rfl
      busyRound := fun _ => firstRound_lt op hv
      workLength := by simp only [goBusy, bbConcat, List.length_append, hmsg, zeros_length]; omega
      workTail := fun _ => List.drop_left' hmsg
      outputTail := fun h => nomatch ho.symm.trans h
      resultProduced := nofun }

theorem inv_issueCrypt (op : OpKind) (hi : Inv C s) (hb : s.busy = false) : Inv C (issueCrypt C op s) := by
  have hclear := inv_clearOutput hi hb
  obtain h | h | ⟨hk, hl, h⟩ := issueCrypt_cases C op s <;> rw [h]
  · exact inv_complete hclear hb nofun
  · exact inv_complete hclear hb nofun
  · exact inv_goBusy op hclear hk hl rfl

theorem inv_dispatchWord (w : Word) (hi : Inv C s) (hb : s.busy = false) : Inv C (dispatchWord C w s) := by
  obtain h | h | ⟨op, h⟩ | h := dispatchWord_cases C w s <;> rw [h]
  · exact inv_loadKey hi hb
  · exact inv_regLen hi hb
  · exact inv_issueCrypt op hi hb
  · exact inv_complete hi hb nofun

/-- A store into `DIN` drops the lanes that do not exist (R58); no other storing register is in the invariant. -/
theorem inv_writeReg (v : Word) (r : Reg) (hi : Inv C s) : Inv C (writeReg C v s r) := by
  cases r with
  | din j =>
    refine { hi with inputLanes := fun k => ?_ }
    by_cases hjk : j = k
    · subst hjk
      simp [writeReg, BitVec.and_assoc]
    · have hne : j.val ≠ k.val := fun h => hjk (Fin.ext h)
      simpa [writeReg, Vector.getElem_set_ne _ _ hne] using hi.inputLanes k
  | _ => exact { hi with }

theorem inv_abort {c : ResultCode} (hi : Inv C s) (hc : c ≠ .invalidKeyMaterial) : Inv C (abort C c s) :=
  { hi with
    idleWiped := fun _ => ⟨rfl, rfl⟩
    busyReady := nofun
    busyNoResult := nofun
    busyRound := nofun
    workLength := zeros_length C.nmax
    workTail := nofun
    resultProduced := hc }

/-- The finished message goes out with zeros behind it, as the eight registers hold more than `NMAX` bits (R34, R210). -/
theorem inv_finish (hi : Inv C s) (hn : s.NL.toNat ≤ C.nmax) : Inv C (finish C s) := by
  obtain ⟨-, hmax, -⟩ := nmax_bounds C
  have hmsg : (s.W.take s.NL.toNat).length = s.NL.toNat := by simp [hi.workLength, hn]
  have htail : (wordsBits (finish C s).dout.toList).drop s.NL.toNat = zeros (256 - s.NL.toNat) := by
    rw [finish_dout, words_of_bits _ (by simp only [List.length_append, hmsg, zeros_length]; omega), List.append_assoc,
      List.drop_left' hmsg]
    rw [List.length_append, hmsg, zeros_length, zeros, zeros, zeros, List.replicate_append_replicate]
    congr 1
    omega
  exact
    { hi with
      idleWiped := fun _ => ⟨rfl, rfl⟩
      invalidOutputZero := nofun
      busyReady := nofun
      busyNoResult := nofun
      busyRound := nofun
      workLength := zeros_length C.nmax
      workTail := nofun
      outputTail := fun _ => ⟨htail, hn⟩
      resultProduced := nofun }

/-- A round's result, as long as the message, is put into `W` with zeros behind it (R187, R188). -/
theorem inv_roundDone {R : Bits} (hi : Inv C s) (hb : s.busy = true) (hR : R.length = s.NL.toNat)
    (hn : s.NL.toNat ≤ C.nmax) : Inv C { s with W := R ++ zeros (C.nmax - s.NL.toNat) } :=
  { hi with
    idleWiped := fun h => nomatch hb.symm.trans h
    workLength := by simp only [List.length_append, hR, zeros_length]; omega
    workTail := fun _ => List.drop_left' hR }

theorem inv_advance (op : OpKind) (hi : Inv C s) (hb : s.busy = true) (hn : s.NL.toNat ≤ C.nmax) :
    Inv C (advance C op s) := by
  obtain ⟨i, h⟩ | ⟨i, h, hround⟩ := advance_cases C op s <;> rw [h]
  · exact { inv_finish hi hn with busyRound := nofun }
  · exact { hi with busyRound := fun _ => hround (hi.busyRound hb) }

/-- A sequencer step keeps the invariant: not enabled it does nothing, and in progress its length is registered, so valid. -/
theorem inv_seqStep {op : OpKind} {t : State} (hi : Inv C s) (h : seqStep C op s = .ok t) : Inv C t := by
  obtain ⟨rfl, -⟩ | ⟨hb, -, rfl | ⟨R, hround, rfl⟩⟩ := seqStep_next h
  · exact hi
  · exact inv_abort hi nofun
  · obtain ⟨-, hl, -⟩ := hi.busyReady hb
    have hv := psValid_of_lrEnsure hl
    obtain ⟨-, -, hn⟩ := (psValid_iff C _).1 hv
    have hmsg : (s.W.take s.NL.toNat).length = s.NL.toNat := by simp [hi.workLength, hn]
    have hR : R.length = s.NL.toNat := (feRound_length (by rwa [hmsg]) hround).trans hmsg
    exact inv_advance op (inv_roundDone hi hb hR hn) hb hn

end

/-- Every instruction keeps the invariant, the internal ones applied alone too. -/
theorem inv_exec {i : Instr} {s t : State} (hi : Inv config s) (h : exec i s = .next t) : Inv config t := by
  obtain ⟨-, ⟨f, rfl⟩ | ⟨v, rfl⟩ | ⟨n, v, -, rfl⟩ | ⟨hb, w, rfl, -⟩ | ⟨r, v, rfl⟩ | ⟨op, hseq, -⟩⟩ := exec_next h
  · exact { hi with }
  · exact { hi with }
  · exact { inv_register n hi with }
  · exact inv_dispatchWord w hi hb
  · exact inv_writeReg v r hi
  · exact inv_seqStep hi hseq

/-- Settles O13: a step is a reset, or takes an event off the port and performs at most one instruction, and `port` is in no clause
of the invariant. -/
theorem stepKeepsTheInvariant : Obligations.StepKeepsTheInvariant := by
  unfold Obligations.StepKeepsTheInvariant
  intro s t hi hstep
  obtain ⟨-, rest, rfl⟩ | ⟨-, -, rest, rfl | ⟨i, hexec, -⟩⟩ := step_next hstep
  · exact { inv_resetOf config with }
  · exact { hi with }
  · exact inv_exec (s := { s with port := rest }) { hi with } hexec

end Sys2Proof.Machine
end

section
/-! SUPPORT. Proofs about the register window: its addresses (R50), its register map (R51, R52), the step of an access (R62, R266), and the
accesses that are bus errors (R55 to R57). -/

namespace Sys2Proof.Machine

/-! ### The window -/

theorem route_window (C : Config) (off : BitVec 8) : route C (C.base + off.toNat) = .ok off := by
  have hlt := off.isLt
  simp [route, hlt]

theorem route_outside {C : Config} {addr : Nat} (h : addr < C.base ∨ C.base + 256 ≤ addr) :
    route C addr = .error (.outsideWindow addr) :=
  if_neg (by omega)

/-- Settles O3: `decodeBus` is `route`, then `decode`, and routing answers the offset inside the window and a rejection outside. -/
theorem windowIsTheBytesAtItsBase : Obligations.WindowIsTheBytesAtItsBase := by
  unfold Obligations.WindowIsTheBytesAtItsBase
  intro C dir size v
  refine ⟨fun off => ?_, fun addr h => ?_⟩
  · simp only [decodeBus, route_window]
  · simp only [decodeBus, route_outside h]

/-! ### The register map -/

/-- The map is one to one: an offset that reaches a register is that register's own (R52). -/
theorem offset_of_regAt {off : BitVec 8} {r : Reg} (h : regAt off = some r) : off = r.offset := by
  unfold regAt at h
  split at h <;> cases h
  all_goals exact BitVec.eq_of_toNat_eq ‹_›

/-- The registers stand in `0x00` to `0x2F` and `0x40` to `0x7F` (R52). -/
theorem offset_mapped (r : Reg) : r.offset.toNat < 0x30 ∨ 0x40 ≤ r.offset.toNat ∧ r.offset.toNat < 0x80 := by
  cases r with
  | keyin j => revert j; decide
  | tweak j => revert j; decide
  | din j => revert j; decide
  | dout j => revert j; decide
  | _ => decide

theorem regAt_unmapped {off : BitVec 8} (h : (0x30 ≤ off.toNat ∧ off.toNat ≤ 0x3F) ∨ 0x80 ≤ off.toNat) : regAt off = none := by
  refine Option.eq_none_iff_forall_ne_some.2 fun r hr => ?_
  have hmapped := offset_mapped r
  rw [← offset_of_regAt hr] at hmapped
  omega

/-- Settles O4: `regAt` and `Reg.offset` are inverse, and no register stands in the two gaps. -/
theorem registerMapIsOneToOne : Obligations.RegisterMapIsOneToOne := by
  unfold Obligations.RegisterMapIsOneToOne
  exact ⟨fun r => ⟨regAt_offset r, offset_aligned r⟩, fun _ _ => offset_of_regAt, fun _ => regAt_unmapped⟩

/-- No readable register stands at `CMD`'s offset or in the `KEYIN` range (R52). -/
theorem offset_of_readable {r : Reg} (h : r.allows .read = true) :
    r.offset ≠ 0x00 ∧ (r.offset.toNat < 0x10 ∨ 0x20 ≤ r.offset.toNat) := by
  cases r with
  | cmd | keyin j => cases h
  | tweak j => clear h; revert j; decide
  | din j => clear h; revert j; decide
  | dout j => clear h; revert j; decide
  | _ => decide

/-- No writable register stands at the offset of `STATUS` or `REGMAP`, or at or above the `DOUT` range (R52). -/
theorem offset_of_writable {r : Reg} (h : r.allows .write = true) :
    r.offset ≠ 0x04 ∧ r.offset ≠ 0x0C ∧ r.offset.toNat < 0x60 := by
  cases r with
  | status | regmap | dout j => cases h
  | keyin j => clear h; revert j; decide
  | tweak j => clear h; revert j; decide
  | din j => clear h; revert j; decide
  | _ => decide

/-! ### The step of an access -/

theorem step_of_access {s : State} {a : Access} {rest : List Event} (hp : s.port = .access a :: rest) :
    step s = exec (decode a) { s with port := rest } := by
  simp only [step, accessEvent, hp]

/-- Settles O5: the head of the port selects the access arm of `step`, which runs the decoded instruction on the rest. -/
theorem stepRunsTheDecodedAccess : Obligations.StepRunsTheDecodedAccess := by
  unfold Obligations.StepRunsTheDecodedAccess
  exact fun _ _ _ => step_of_access

/-! ### Bus errors -/

/-- An access that reaches no register is a bus error at its offset: there is no third outcome. -/
theorem accessed_busError {dir : Dir} {off : BitVec 8} {size : Nat} (h : ∀ r, accessed dir off size ≠ .ok r) :
    accessed dir off size = .error (.busError off) := by
  cases ha : accessed dir off size with
  | ok r => exact absurd ha (h r)
  | error f => rw [accessed_error ha]

theorem exec_rd_busError {s : State} {off : BitVec 8} {size : Nat} (hf : s.fault = none)
    (h : ∀ r, accessed .read off size ≠ .ok r) : exec (.rd off size) s = .next { s with fault := some (.busError off) } :=
  (exec_bus_error 0 hf).1 (accessed_busError h)

theorem exec_wr_busError {s : State} {off : BitVec 8} {size : Nat} (v : Word) (hf : s.fault = none)
    (h : ∀ r, accessed .write off size ≠ .ok r) : exec (.wr off size v) s = .next { s with fault := some (.busError off) } :=
  (exec_bus_error v hf).2 (accessed_busError h)

/-- Settles O25: an access that reaches a register is 4 bytes wide at a multiple of 4. -/
theorem wrongWidthOrMisalignedIsABusError : Obligations.WrongWidthOrMisalignedIsABusError := by
  unfold Obligations.WrongWidthOrMisalignedIsABusError
  intro s off size v hf hbad
  have hreach (dir : Dir) (r : Reg) (ha : accessed dir off size = .ok r) : False := by
    obtain ⟨hsize, haligned, -, -⟩ := accessed_ok ha
    omega
  exact ⟨exec_rd_busError hf (hreach .read), exec_wr_busError v hf (hreach .write)⟩

/-- Settles O26: an access that reaches a register is at a mapped offset. -/
theorem unmappedAccessIsABusError : Obligations.UnmappedAccessIsABusError := by
  unfold Obligations.UnmappedAccessIsABusError
  intro s off size v hf hunmapped
  have hreach (dir : Dir) (r : Reg) (ha : accessed dir off size = .ok r) : False := by
    obtain ⟨-, -, hr, -⟩ := accessed_ok ha
    cases hr.symm.trans (regAt_unmapped hunmapped)
  exact ⟨exec_rd_busError hf (hreach .read), exec_wr_busError v hf (hreach .write)⟩

/-- Settles O27: the register an access reaches allows the access's direction, and stands at its offset. -/
theorem wrongDirectionIsABusError : Obligations.WrongDirectionIsABusError := by
  unfold Obligations.WrongDirectionIsABusError
  intro s size v hf
  refine ⟨fun off hoff => exec_rd_busError hf fun r ha => ?_, fun off hoff => exec_wr_busError v hf fun r ha => ?_⟩
  · obtain ⟨-, -, hr, hallow⟩ := accessed_ok ha
    obtain ⟨hcmd, hkeyin⟩ := offset_of_readable hallow
    rw [← offset_of_regAt hr] at hcmd hkeyin
    obtain rfl | rfl | rfl | rfl | rfl := hoff <;> simp at hcmd hkeyin
  · obtain ⟨-, -, hr, hallow⟩ := accessed_ok ha
    obtain ⟨hstatus, hregmap, hdout⟩ := offset_of_writable hallow
    rw [← offset_of_regAt hr] at hstatus hregmap hdout
    obtain h | h | ⟨h, -⟩ := hoff
    · exact hstatus h
    · exact hregmap h
    · exact absurd h (Nat.not_le.2 hdout)

end Sys2Proof.Machine
end

section
/-! SUPPORT. Proofs about the encoding (R70 to R77), the result codes (R74, R75), and the run of the pseudo-command LOADKEY (R78). -/

namespace Sys2Proof

/-! ### Command words -/

theorem legalCommandWord_iff (w : Word) : legalCommandWord w = true ↔ w = 1 ∨ w = 2 ∨ w = 3 ∨ w = 4 := by
  simp only [legalCommandWord, Bool.or_eq_true, beq_iff_eq, or_assoc]

theorem decodeWord_of_not_legal {w : Word} (h : legalCommandWord w = false) : decodeWord w = .illegal w := by
  rw [← Bool.not_eq_true, legalCommandWord_iff, not_or, not_or, not_or] at h
  obtain ⟨h1, h2, h3, h4⟩ := h
  rw [decodeWord, if_neg h1, if_neg h2, if_neg h3, if_neg h4]

/-- Every command word is a well-formed host instruction that encodes back to the word (R70 to R72). -/
theorem encode_decodeWord (w : Word) :
    (decodeWord w).isHost = true ∧ (decodeWord w).wf = true ∧ encode (decodeWord w) = some (cmdWrite w) := by
  cases hl : legalCommandWord w with
  | true => obtain rfl | rfl | rfl | rfl := (legalCommandWord_iff w).1 hl <;> exact ⟨rfl, rfl, rfl⟩
  | false =>
    rw [decodeWord_of_not_legal hl]
    exact ⟨rfl, by simp only [Instr.wf, hl, Bool.not_false], rfl⟩

/-- Settles O1: a 32-bit write at offset 0 decodes as its word, which is ILLEGAL when it is none of the four. -/
theorem commandWordsDecodeToTheirCommands : Obligations.CommandWordsDecodeToTheirCommands := by
  unfold Obligations.CommandWordsDecodeToTheirCommands
  refine ⟨rfl, rfl, rfl, rfl, rfl, rfl, fun w h1 h2 h3 h4 => ?_⟩
  have hl : ¬legalCommandWord w = true := by simp only [legalCommandWord_iff, h1, h2, h3, h4, or_self, not_false_eq_true]
  exact decodeWord_of_not_legal (Bool.eq_false_iff.2 hl)

/-! ### Encoding and decoding -/

theorem decode_write {off : BitVec 8} {size : Nat} (v : Word) (h : ¬(off = 0x00 ∧ size = 4)) :
    decode ⟨.write, off, size, v⟩ = .wr off size v :=
  if_neg h

/-- A WR is well formed exactly when it is no 32-bit write to `CMD` (R213). -/
theorem wf_wr_iff (off : BitVec 8) (size : Nat) (v : Word) :
    (Instr.wr off size v).wf = true ↔ ¬(off = 0x00 ∧ size = 4) := by
  simp only [Instr.wf, Bool.not_eq_true', ← Bool.not_eq_true, Bool.and_eq_true, beq_iff_eq]

theorem decode_encode {i : Instr} (hhost : i.isHost = true) (hwf : i.wf = true) :
    ∃ a, encode i = some a ∧ decode a = i := by
  cases i with
  | loadkey | reglen | enc | dec | rd => exact ⟨_, rfl, rfl⟩
  | illegal w => exact ⟨_, rfl, decodeWord_of_not_legal ((Bool.not_eq_true' _).mp hwf)⟩
  | wr off size v => exact ⟨_, rfl, decode_write v ((wf_wr_iff off size v).1 hwf)⟩
  | _ => cases hhost

/-- Every access is a well-formed host instruction that encodes back to the access; a read carries no data. -/
theorem encode_decode (a : Access) :
    (decode a).isHost = true ∧ (decode a).wf = true ∧
      encode (decode a) = some (match a.dir with | .read => { a with data := 0 } | .write => a) := by
  obtain ⟨dir, off, size, v⟩ := a
  cases dir with
  | read => exact ⟨rfl, rfl, rfl⟩
  | write =>
    by_cases hcmd : off = 0x00 ∧ size = 4
    · obtain ⟨rfl, rfl⟩ := hcmd
      exact encode_decodeWord v
    · rw [decode_write v hcmd]
      exact ⟨rfl, (wf_wr_iff off size v).2 hcmd, rfl⟩

theorem encode_of_not_host {i : Instr} (h : i.isHost = false) : encode i = none := by
  cases i with
  | loadkey | reglen | enc | dec | illegal | rd | wr => cases h
  | _ => rfl

/-- Settles O2: each of `encode` and `decode` undoes the other, and an internal operation has no encoding. -/
theorem encodingAndDecodingAreInverse : Obligations.EncodingAndDecodingAreInverse := by
  unfold Obligations.EncodingAndDecodingAreInverse
  exact ⟨fun _ => decode_encode, encode_decode, fun _ => encode_of_not_host⟩

end Sys2Proof

namespace Sys2Proof.Machine

/-! ### Result codes -/

theorem isFailure_iff (r : ResultCode) : r.isFailure = true ↔ 0x10 ≤ r.value.toNat :=
  decide_eq_true_iff

theorem isSuccess_iff (r : ResultCode) : r.isSuccess = true ↔ r = .ok ∨ r = .registered ∨ r = .alreadyRegistered := by
  simp only [ResultCode.isSuccess, Bool.or_eq_true, beq_iff_eq, or_assoc]

/-- Settles O31: the table's values by evaluation, the two classes by their definitions. -/
theorem resultCodesHaveTheirValues : Obligations.ResultCodesHaveTheirValues := by
  unfold Obligations.ResultCodesHaveTheirValues
  exact ⟨rfl, isFailure_iff, isSuccess_iff⟩

/-! ### Runs of host writes -/

theorem run_succ_of_step {s t : State} (n : Nat) (h : step s = .next t) :
    Host.Core.run core (n + 1) s = Host.Core.run core n t := by
  have hcore : core.step s = .next t := h
  simp only [Host.Core.run, hcore]

/-- A host's write of a storing register is a WR, as only `CMD` is at offset 0, and stores (R60, R77). -/
theorem step_of_storing_hostWr {s : State} {r : Reg} (v : Word) (rest : List Event) (hf : s.fault = none)
    (hr : r.allows .write = true) (hc : r ≠ .cmd) :
    step { s with port := hostWr r v :: rest } = .next { writeReg config v s r with port := rest } := by
  have hoff : r.offset ≠ 0x00 := fun h => hc (Option.some.inj ((regAt_offset r).symm.trans (congrArg regAt h)))
  have hport : writeReg config v { s with port := rest } r = { writeReg config v s r with port := rest } := by cases r <;> rfl
  rw [step_of_access rfl, decode_write v (fun h => hoff h.1), ← hport]
  exact exec_wr_register (s := { s with port := rest }) hf hr hc

/-- A host's write of `CMD` with no command in progress dispatches the word (R77, R200). -/
theorem step_of_command_hostWr {s : State} (w : Word) (rest : List Event) (hf : s.fault = none) (hb : s.busy = false) :
    step { s with port := hostWr .cmd w :: rest } = .next (dispatchWord config w { s with port := rest }) := by
  rw [step_of_access rfl]
  exact (exec_decodeWord { s with port := rest } w).trans
    (perform_of_ok (s := { s with port := rest }) hf (command_of_idle _ hb))

theorem writeReg_fault (C : Config) (v : Word) (s : State) (r : Reg) : (writeReg C v s r).fault = s.fault := by
  cases r <;> rfl

/-- The state after a list of stores, the first store first. -/
def storeAll (C : Config) (stores : List (Reg × Word)) (s : State) : State :=
  stores.foldl (fun t rv => writeReg C rv.2 t rv.1) s

/-- A host's writes of storing registers happen one after the other, each in one step, before what else is at the port. -/
theorem run_of_storing_hostWrs (rest : List Event) (n : Nat) (stores : List (Reg × Word)) :
    ∀ {s : State}, s.fault = none → (∀ rv ∈ stores, rv.1.allows .write = true ∧ rv.1 ≠ .cmd) →
      Host.Core.run core (stores.length + n) { s with port := stores.map (fun rv => hostWr rv.1 rv.2) ++ rest } =
        Host.Core.run core n { storeAll config stores s with port := rest } := by
  induction stores with
  | nil => intro s _ _; rw [List.length_nil, Nat.zero_add]; rfl
  | cons rv stores ih =>
    intro s hf hstoring
    obtain ⟨⟨hr, hc⟩, hrest⟩ := List.forall_mem_cons.1 hstoring
    rw [List.length_cons, Nat.add_right_comm]
    exact (run_succ_of_step _ (step_of_storing_hostWr rv.2 _ hf hr hc)).trans (ih ((writeReg_fault ..).trans hf) hrest)

/-! ### LOADKEY -/

/-- The four stores of `LOADKEY k`: its words into the staging registers (R78). -/
def keyinStores (k : Block) : List (Reg × Word) := (List.finRange 4).map fun j => (.keyin j, blockWord k j)

theorem pseudoLoadkey_eq_stores (k : Block) :
    pseudoLoadkey k = (keyinStores k).map (fun rv => hostWr rv.1 rv.2) ++ [hostWr .cmd 0x00000001] := rfl

/-- Storing at every index leaves nothing of the vector before. -/
theorem foldl_set_finRange (f : Fin 4 → Word) (ws : Vector Word 4) :
    (List.finRange 4).foldl (fun ws j => ws.set j (f j)) ws = Vector.ofFn f := by
  apply Vector.ext
  intro i hi
  interval_cases i <;> simp [List.finRange]

theorem storeAll_keyinStores (C : Config) (k : Block) (s : State) :
    storeAll C (keyinStores k) s = { s with keyin := Vector.ofFn (blockWord k) } := by
  rw [← foldl_set_finRange (blockWord k) s.keyin]
  rfl

/-- A block is its four words, the most significant first (R54). -/
theorem wordsBlock_blockWords (k : Block) : wordsBlock (Vector.ofFn (blockWord k)) = k := by
  simp only [wordsBlock, Vector.getElem_ofFn, blockWord]
  rw [BitVec.extractLsb'_append_extractLsb'_eq_extractLsb', BitVec.extractLsb'_append_extractLsb'_eq_extractLsb',
    BitVec.extractLsb'_append_extractLsb'_eq_extractLsb']
  · exact BitVec.extractLsb'_eq_self
  all_goals rfl

/-- LOADKEY as one update: the lock decides the key and the result, and the staging registers are cleared either way (R203, R204). -/
theorem loadKey_eq (s : State) : loadKey s = { s with
    keyin := Vector.replicate 4 0, keyValid := true, key := if s.keyValid = true then s.key else keyinBlock s,
    result := if s.keyValid = true then .keyLocked else .ok, busy := false } := by
  obtain ⟨_, kv⟩ := s
  cases kv <;> rfl

/-- Settles O32: the four stores stage the key, and the command word dispatches to LOADKEY. -/
theorem pseudoLoadkeyLoadsItsKey : Obligations.PseudoLoadkeyLoadsItsKey := by
  unfold Obligations.PseudoLoadkeyLoadsItsKey
  intro s k hf hb hp
  have hstoring : ∀ rv ∈ keyinStores k, rv.1.allows .write = true ∧ rv.1 ≠ .cmd := by
    simp [keyinStores, Reg.allows]
  calc Host.Core.run core 5 s
      = Host.Core.run core (4 + 1) { s with port := pseudoLoadkey k } := by rw [← hp]
    _ = Host.Core.run core 1 { s with keyin := Vector.ofFn (blockWord k), port := [hostWr .cmd 0x00000001] } := by
        rw [pseudoLoadkey_eq_stores]
        exact (run_of_storing_hostWrs _ 1 (keyinStores k) hf hstoring).trans (by rw [storeAll_keyinStores])
    _ = .next (loadKey { s with keyin := Vector.ofFn (blockWord k), port := [] }) :=
        run_succ_of_step 0 (step_of_command_hostWr (s := { s with keyin := Vector.ofFn (blockWord k) }) 0x00000001 [] hf hb)
    _ = _ := by rw [loadKey_eq, keyinBlock, wordsBlock_blockWords, ← hb]

end Sys2Proof.Machine
end

section
/-! SUPPORT. Proofs about the FixedBitBuffer primitives (R101 to R106). -/

namespace Sys2Proof.Machine

/-! ### A datapath operation applied alone -/

section
variable {α : Type} {wrap : α → Value} {s : State} {r : Dp α}

/-- An operation that cannot stop returns its value, and nothing else changes (R17, R193). -/
theorem perform_returns_value (v : Value) (hf : s.fault = none) : perform s (returns (.ok v)) = .next { s with ret := some v } :=
  perform_of_ok hf (returns_ok v s)

/-- A datapath operation that has a value returns it, and nothing else changes (R17, R193). -/
theorem perform_returns_of_ok {a : α} (hf : s.fault = none) (hr : r = .ok a) :
    perform s (returns (r.map wrap)) = .next { s with ret := some (wrap a) } := by
  rw [hr]
  exact perform_returns_value (wrap a) hf

/-- A datapath operation that raises a fault sets the mark, and nothing else changes (R232). -/
theorem perform_returns_of_raised {f : Fault} (hf : s.fault = none) (hr : r = .error (.raised f)) :
    perform s (returns (r.map wrap)) = .next { s with fault := some f } :=
  perform_of_error hf (by rw [hr]; exact returns_raised f s)

end

/-! ### Slices, concatenation and exclusive or -/

theorem bbSlice_raised {X : Bits} {lo hi : Nat} (h : ¬(lo ≤ hi ∧ hi ≤ X.length)) :
    bbSlice X lo hi = .error (.raised (.bufferRange lo hi X.length)) :=
  if_neg h

/-- Settles O33: the range is what `take` leaves of `drop`, and the two clauses are the two branches of the operation. -/
theorem sliceTakesItsRangeOrFaults : Obligations.SliceTakesItsRangeOrFaults := by
  unfold Obligations.SliceTakesItsRangeOrFaults
  intro s X lo hi hf
  refine ⟨fun h => ⟨_, perform_returns_of_ok hf (bbSlice_ok h), ?_, fun j hj => ?_⟩,
    fun h => perform_returns_of_raised hf (bbSlice_raised (by omega))⟩
  · rw [List.length_take, List.length_drop]
    omega
  · rw [List.getElem?_take_of_lt hj, List.getElem?_drop]

/-- Settles O34: the operation is `append`, whose bits are its operands' on either side of the first one's length. -/
theorem concatPutsTheFirstOperandFirst : Obligations.ConcatPutsTheFirstOperandFirst := by
  unfold Obligations.ConcatPutsTheFirstOperandFirst
  intro s X Y hf
  refine ⟨X ++ Y, perform_returns_value (.bits (X ++ Y)) hf, List.length_append, fun j hj => List.getElem?_append_left hj, fun j _ => ?_⟩
  rw [List.getElem?_append_right (Nat.le_add_right _ j), Nat.add_sub_cancel_left]

theorem bbXor_raised {X Y : Bits} (h : X.length ≠ Y.length) :
    bbXor X Y = .error (.raised (.lengthMismatch X.length Y.length)) :=
  if_neg h

theorem getD_zipWith_xor {X Y : Bits} (h : X.length = Y.length) (j : Nat) :
    (List.zipWith Bool.xor X Y).getD j false = (X.getD j false != Y.getD j false) := by
  simp only [List.getD_eq_getElem?_getD, List.getElem?_zipWith]
  by_cases hj : j < X.length
  · simp [hj, h ▸ hj]
  · simp [List.getElem?_eq_none (Nat.le_of_not_lt hj), List.getElem?_eq_none (h ▸ Nat.le_of_not_lt hj)]

/-- Settles O35: equal lengths leave no bit of either operand out, and unequal ones are the other branch of the operation. -/
theorem xorIsBitwiseOrFaults : Obligations.XorIsBitwiseOrFaults := by
  unfold Obligations.XorIsBitwiseOrFaults
  intro s X Y hf
  refine ⟨fun h => ⟨_, perform_returns_of_ok hf (bbXor_ok h), ?_, getD_zipWith_xor h⟩,
    fun h => perform_returns_of_raised hf (bbXor_raised h)⟩
  rw [List.length_zipWith, ← h, Nat.min_self]

/-! ### Bytes -/

/-- Bit `7 − m` of byte `b` is bit `8b + m` of the buffer, and 0 beyond its end (R104). -/
theorem bbTobytes_bit (X : Bits) (b : Nat) {m : Nat} (hm : m < 8) :
    ((bbTobytes X).getD b 0).getLsbD (7 - m) = X.getD (8 * b + m) false := by
  by_cases hb : b < byteCount X.length
  · have hbyte : (bbTobytes X).getD b 0 = bitsVec 8 ((List.range 8).map fun m => X.getD (8 * b + m) false) := by
      simp [bbTobytes, List.getD_eq_getElem?_getD, hb]
    rw [hbyte, bitsVec_bit 8 _ (by simp) m hm]
    simp [List.getD_eq_getElem?_getD, hm]
  · have hend : X.length ≤ 8 * b + m := by
      unfold byteCount at hb
      omega
    rw [List.getD_eq_default _ _ (by rw [bbTobytes_length]; omega), List.getD_eq_default _ _ hend]
    exact BitVec.getLsbD_zero

/-- The `L` bits a byte string holds, each byte's most significant bit first (R105). -/
def unpack (b : Bytes) (L : Nat) : Bits := (List.range L).map fun i => (b.getD (i / 8) 0).getMsbD (i % 8)

theorem bbFrombytes_eq_unpack {b : Bytes} {L : Nat} (h : b.length = byteCount L) : bbFrombytes b L = .ok (unpack b L) :=
  bbFrombytes_ok h

theorem bbFrombytes_raised {b : Bytes} {L : Nat} (h : b.length ≠ byteCount L) :
    bbFrombytes b L = .error (.raised (.byteCountMismatch b.length L)) :=
  if_neg h

@[simp] theorem unpack_length (b : Bytes) (L : Nat) : (unpack b L).length = L := by simp [unpack]

theorem getD_unpack (b : Bytes) (L i : Nat) :
    (unpack b L).getD i false = (decide (i < L) && (b.getD (i / 8) 0).getLsbD (7 - i % 8)) := by
  by_cases hi : i < L
  · have hmod : i % 8 < 8 := Nat.mod_lt i (by decide)
    simp [unpack, List.getD_eq_getElem?_getD, hi, BitVec.getMsbD, hmod]
  · rw [List.getD_eq_default _ _ (by rw [unpack_length]; omega)]
    simp [hi]

/-- Unpacking the packed bytes of a buffer gives the buffer back (R106). -/
theorem unpack_bbTobytes (X : Bits) : unpack (bbTobytes X) X.length = X := by
  refine bits_ext (unpack_length _ _) fun i hi => ?_
  rw [unpack_length] at hi
  rw [getD_unpack, bbTobytes_bit X (i / 8) (Nat.mod_lt i (by decide)), Nat.div_add_mod, decide_eq_true hi, Bool.true_and]

/-- Packing the unpacked bits of a byte string clears its bits from `L` on and keeps the others (R106). -/
theorem bbTobytes_unpack_bit (b : Bytes) (L i : Nat) {m : Nat} (hm : m < 8) :
    ((bbTobytes (unpack b L)).getD i 0).getLsbD (7 - m) = (decide (8 * i + m < L) && (b.getD i 0).getLsbD (7 - m)) := by
  rw [bbTobytes_bit _ i hm, getD_unpack, show (8 * i + m) / 8 = i by omega, show (8 * i + m) % 8 = m by omega]

/-- Settles O36, by the bits of the packed bytes. -/
theorem toBytesPacksMostSignificantFirst : Obligations.ToBytesPacksMostSignificantFirst := by
  unfold Obligations.ToBytesPacksMostSignificantFirst
  exact fun s X hf => ⟨bbTobytes X, perform_returns_value (.bytes (bbTobytes X)) hf, bbTobytes_length X, fun b _ => bbTobytes_bit X b⟩

/-- Settles O37, by the bits of the unpacked buffer; another count is the other branch of the operation. -/
theorem fromBytesUnpacksOrFaults : Obligations.FromBytesUnpacksOrFaults := by
  unfold Obligations.FromBytesUnpacksOrFaults
  intro s b L hf
  refine ⟨fun h => ⟨_, perform_returns_of_ok hf (bbFrombytes_eq_unpack h), unpack_length b L, fun i hi => ?_⟩,
    fun h => perform_returns_of_raised hf (bbFrombytes_raised h)⟩
  rw [getD_unpack, decide_eq_true hi, Bool.true_and]

/-- Settles O38: packing and unpacking undo each other bit by bit, and the packed bytes are as many as the byte string's. -/
theorem byteConversionsRoundTrip : Obligations.ByteConversionsRoundTrip := by
  unfold Obligations.ByteConversionsRoundTrip
  refine ⟨fun X => ?_, fun b L h => ⟨unpack b L, bbFrombytes_eq_unpack h, ?_, fun i _ => bbTobytes_unpack_bit b L i⟩, bbTobytes_length⟩
  · rw [bbFrombytes_eq_unpack (bbTobytes_length X), unpack_bbTobytes]
  · rw [bbTobytes_length, unpack_length]
    exact h.symm

end Sys2Proof.Machine
end

section
/-! SUPPORT. Proofs about the round-mask generator (R120 to R128). -/

namespace Sys2Proof.Machine

/-! ### A datapath operation that reads the state -/

theorem perform_congr {s : State} {body body' : State → Except Fault State} (h : body s = body' s) : perform s body = perform s body' := by
  unfold perform
  rw [h]

/-- A datapath operation that fails with the cipher returns `FAIL`, and nothing else changes (R12, R17). -/
theorem perform_returns_of_fail {α : Type} {wrap : α → Value} {s : State} {r : Dp α} (hf : s.fault = none) (hr : r = .error .fail) :
    perform s (returns (r.map wrap)) = .next { s with ret := some .fail } :=
  perform_of_ok hf (by rw [hr]; exact returns_fail s)

theorem exec_rmCbc (T : Block) (P : Bytes) (s : State) :
    exec (.rmCbc T P) s = perform s (returns ((rmCbc config s.key T P).map .bytes)) :=
  perform_congr rfl

theorem exec_rmMask (T : Block) (H : Bits) (m : Nat) (s : State) :
    exec (.rmMask T H m) s = perform s (returns ((rmMask config s.key T H m).map .bits)) :=
  perform_congr rfl

/-! ### Padding -/

/-- The default padding fills the last block up, with a whole block where none is begun (PKCS#7, R13). -/
theorem padBlocks_default (b : Bytes) : 16 * padBlocks defaultConfig b - b.length = 16 - b.length % 16 := by
  simp only [padBlocks, defaultConfig]
  split <;> omega

theorem pad_default (b : Bytes) :
    pad defaultConfig b = b ++ List.replicate (16 - b.length % 16) (BitVec.ofNat 8 (16 - b.length % 16)) := by
  have hbyte : defaultConfig.padByte b = fun _ => BitVec.ofNat 8 (16 - b.length % 16) := rfl
  rw [pad, padBlocks_default, hbyte, List.map_const', List.length_range]

/-- Padding rests on two parameters only (R13). -/
theorem rmPad_congr {C D : Config} (he : C.padExtra = D.padExtra) (hb : C.padByte = D.padByte) (H : Bits) : rmPad C H = rmPad D H := by
  simp only [rmPad, pad, padBlocks, he, hb]

/-- Settles O39: the string is the half's bytes and what `pad` appends, and the default number of blocks leaves exactly PKCS#7's tail. -/
theorem paddingExtendsToWholeBlocks : Obligations.PaddingExtendsToWholeBlocks := by
  unfold Obligations.PaddingExtendsToWholeBlocks
  refine ⟨fun s H hf => ?_, fun H => pad_default (bbTobytes H)⟩
  obtain ⟨hlen, hq⟩ := pad_length config (bbTobytes H)
  exact ⟨padBlocks config (bbTobytes H), _, hq, hlen, perform_returns_value (.bytes (rmPad config H)) hf⟩

/-! ### Cipher block chaining -/

/-- RM_CBC raises no fault, on whole blocks or off them (R122, R12). -/
theorem rmCbc_fails_or_answers (C : Config) (key T : Block) (P : Bytes) :
    rmCbc C key T P = .error .fail ∨ ∃ O, rmCbc C key T P = .ok O := by
  by_cases h : P.length % 16 = 0
  · exact (rmCbc_cases C h).imp id fun ⟨O, hO, _⟩ => ⟨O, hO⟩
  · rw [rmCbc, if_neg h]
    cases C.cbcUnstated key T P with
    | none => exact .inl rfl
    | some O => exact .inr ⟨O, rfl⟩

theorem bytesBlock_append {b : Bytes} (hb : b.length = 16) (P : Bytes) : bytesBlock (b ++ P) = bytesBlock b := by
  simp only [bytesBlock, ← hb, List.take_left, List.take_length]

theorem blocksOf_append {b : Bytes} (hb : b.length = 16) (P : Bytes) :
    blocksOf ((b ++ P).length / 16) (b ++ P) = bytesBlock b :: blocksOf (P.length / 16) P := by
  rw [show (b ++ P).length / 16 = P.length / 16 + 1 by rw [List.length_append]; omega, blocksOf, bytesBlock_append hb, ← hb, List.drop_left]

theorem rmCbc_of_whole {P : Bytes} (h : P.length % 16 = 0) (C : Config) (key T : Block) :
    rmCbc C key T P = orFail ((cbcBlocks C key T (blocksOf (P.length / 16) P)).map (·.flatMap blockBytes)) :=
  if_pos h

/-- One turn of the loop of RM_CBC whose cipher fails (R122, R12). -/
theorem rmCbc_append_of_none {C : Config} {key T : Block} {b P : Bytes} (hb : b.length = 16) (hP : P.length % 16 = 0)
    (hc : C.cipher key (bytesBlock b ^^^ T) = none) : rmCbc C key T (b ++ P) = .error .fail := by
  rw [rmCbc_of_whole (by rw [List.length_append]; omega), blocksOf_append hb]
  simp only [cbcBlocks, hc]
  rfl

/-- One turn of the loop of RM_CBC: the rest is chained from the first block's output (R122). -/
theorem rmCbc_append_of_some {C : Config} {key T c : Block} {b P : Bytes} (hb : b.length = 16) (hP : P.length % 16 = 0)
    (hc : C.cipher key (bytesBlock b ^^^ T) = some c) :
    rmCbc C key T (b ++ P) = (rmCbc C key c P).map (blockBytes c ++ ·) := by
  rw [rmCbc_of_whole (by rw [List.length_append]; omega), blocksOf_append hb, rmCbc_of_whole hP]
  simp only [cbcBlocks, hc]
  cases cbcBlocks C key c (blocksOf (P.length / 16) P) <;> rfl

/-- Settles O40: the operation answers by `rmCbc_fails_or_answers`, and a block before whole blocks is one turn of its loop. -/
theorem cbcChainsTheBlocks : Obligations.CbcChainsTheBlocks := by
  unfold Obligations.CbcChainsTheBlocks
  refine ⟨fun s T P hf => ?_, fun C key T => rfl, fun C key T b P hb hP => ?_⟩
  · rw [exec_rmCbc]
    rcases rmCbc_fails_or_answers config s.key T P with h | ⟨O, h⟩
    · rw [perform_returns_of_fail hf h, h]
    · rw [perform_returns_of_ok hf h, h]
  · cases hc : C.cipher key (bytesBlock b ^^^ T) with
    | none => exact rmCbc_append_of_none hb hP hc
    | some c =>
      rw [rmCbc_append_of_some hb hP hc]
      dsimp only
      cases rmCbc C key c P <;> rfl

/-! ### The mask -/

/-- The bits of a byte string are its bytes' bits one after another (R105). -/
theorem unpack_eq_flatMap (b : Bytes) : unpack b (8 * b.length) = b.flatMap vecBits := by
  induction b with
  | nil => rfl
  | cons x b ih =>
    have hhead : ∀ i, i < 8 → ((x :: b).getD (i / 8) 0).getMsbD (i % 8) = x.getMsbD i := by
      intro i hi
      rw [Nat.div_eq_of_lt hi, Nat.mod_eq_of_lt hi, List.getD_cons_zero]
    have htail : ∀ i, ((x :: b).getD ((8 + i) / 8) 0).getMsbD ((8 + i) % 8) = (b.getD (i / 8) 0).getMsbD (i % 8) := by
      intro i
      rw [show (8 + i) / 8 = i / 8 + 1 by omega, Nat.add_mod_left, List.getD_cons_succ]
    rw [List.flatMap_cons, ← ih, unpack, List.length_cons, Nat.mul_succ, Nat.add_comm, List.range_add, List.map_append, List.map_map]
    exact congrArg₂ (· ++ ·) (List.map_congr_left fun i hi => hhead i (List.mem_range.1 hi)) (List.map_congr_left fun i _ => htail i)

section
variable {C : Config} {key T : Block} {H : Bits} {m : Nat} {O : Bytes}

theorem rmMask_of_fail (h : rmCbc C key T (rmPad C H) = .error .fail) : rmMask C key T H m = .error .fail := by
  simp only [rmMask, h]

/-- The cipher output is as long as the padded string, so its bits are all there (R124). -/
theorem rmMask_of_ok (h : rmCbc C key T (rmPad C H) = .ok O) :
    rmMask C key T H m =
      if 8 * (rmPad C H).length < m then .error (.raised (.maskUnderflow m (8 * (rmPad C H).length)))
      else .ok ((O.flatMap vecBits).take m) := by
  obtain ⟨h16, -⟩ := rmPad_length C H
  have hlen : O.length = (rmPad C H).length := by
    rcases rmCbc_cases C h16 (key := key) (T := T) with hf | ⟨O', hO, hl⟩
    · cases hf.symm.trans h
    · cases hO.symm.trans h
      exact hl
  have hbits : 128 * ((rmPad C H).length / 16) = 8 * (rmPad C H).length := by omega
  have hcount : O.length = byteCount (8 * (rmPad C H).length) := by
    unfold byteCount
    omega
  simp only [rmMask, h, hbits, bbFrombytes_eq_unpack hcount]
  split
  · rfl
  · rw [bbSlice_ok (by rw [unpack_length]; omega), ← hlen, unpack_eq_flatMap, List.drop_zero, Nat.sub_zero]

end

/-- Settles O41: the cipher fails, or its output has exactly the bits of the padded string, of which `m` are enough or too many. -/
theorem maskIsTheLeadingBitsOfTheCipherOutput : Obligations.MaskIsTheLeadingBitsOfTheCipherOutput := by
  unfold Obligations.MaskIsTheLeadingBitsOfTheCipherOutput
  intro s T H m hf
  rw [exec_rmMask]
  rcases rmCbc_fails_or_answers config s.key T (rmPad config H) with h | ⟨O, h⟩
  · rw [perform_returns_of_fail hf (rmMask_of_fail h), h]
    exact ⟨fun _ => rfl, fun _ => rfl⟩
  · have hmask := rmMask_of_ok (m := m) h
    rw [h]
    exact ⟨fun hm => perform_returns_of_ok hf (hmask.trans (if_neg (by omega))),
      fun hm => perform_returns_of_raised hf (hmask.trans (if_pos hm))⟩

/-! ### The engine's case -/

theorem getD_vecBits {w : Nat} (v : BitVec w) {i : Nat} (hi : i < w) : (vecBits v).getD i false = v.getLsbD (w - 1 - i) := by
  simp [vecBits, List.getD_eq_getElem?_getD, hi, BitVec.getMsbD]

/-- A block's bits are its bytes' bits one after another (R53). -/
theorem flatMap_vecBits_blockBytes (c : Block) : (blockBytes c).flatMap vecBits = vecBits c := by
  rw [← unpack_eq_flatMap, blockBytes_length]
  refine bits_ext (by rw [unpack_length, vecBits_length]) fun i hi => ?_
  rw [unpack_length] at hi
  have hbyte : (blockBytes c).getD (i / 8) 0 = c.extractLsb' (120 - 8 * (i / 8)) 8 := by
    simp [blockBytes, List.getD_eq_getElem?_getD, show i / 8 < 16 by omega]
  rw [getD_vecBits c hi, getD_unpack, decide_eq_true hi, Bool.true_and, hbyte, BitVec.getLsbD_extractLsb', decide_eq_true (by omega),
    Bool.true_and]
  exact congrArg c.getLsbD (by omega)

/-- A vector is the one its bits make (R15). -/
theorem bitsVec_vecBits {w : Nat} (v : BitVec w) : bitsVec w (vecBits v) = v := by
  refine BitVec.eq_of_getLsbD_eq fun i hi => ?_
  have h := bitsVec_bit w (vecBits v) (vecBits_length v) (w - 1 - i) (by omega)
  rwa [getD_vecBits v (by omega), show w - 1 - (w - 1 - i) = i by omega] at h

theorem bitsNat_vecBits {w : Nat} (v : BitVec w) : bitsNat (vecBits v) = v.toNat := by
  have hlt := bitsNat_lt (vecBits v)
  rw [vecBits_length] at hlt
  rw [← congrArg BitVec.toNat (bitsVec_vecBits v), bitsVec, BitVec.toNat_ofNat, Nat.mod_eq_of_lt hlt]

theorem bitsNat_append (X Y : Bits) : bitsNat (X ++ Y) = bitsNat X * 2 ^ Y.length + bitsNat Y := by
  rw [bitsNat, List.foldl_append, bitsNat_foldl]
  rfl

/-- Reading bytes in base 256 is reading their bits in base 2. -/
theorem foldl_bytes_eq_bitsNat (b : Bytes) (X : Bits) :
    b.foldl (fun acc x => 256 * acc + x.toNat) (bitsNat X) = bitsNat (X ++ b.flatMap vecBits) := by
  induction b generalizing X with
  | nil => simp
  | cons x b ih =>
    have hstep : 256 * bitsNat X + x.toNat = bitsNat (X ++ vecBits x) := by
      rw [bitsNat_append, bitsNat_vecBits, vecBits_length]
      omega
    rw [List.foldl_cons, hstep, ih, List.flatMap_cons, List.append_assoc]

theorem bytesBlock_eq_bitsVec {b : Bytes} (h : b.length = 16) : bytesBlock b = bitsVec 128 (b.flatMap vecBits) := by
  rw [bytesBlock, ← h, List.take_length]
  exact congrArg (BitVec.ofNat 128) (foldl_bytes_eq_bitsNat b [])

/-- Bit `i` of a block, first bit most significant, is bit `7 − i mod 8` of byte `i / 8` (R53, R104). -/
theorem bytesBlock_bit {b : Bytes} (h : b.length = 16) {i : Nat} (hi : i < 128) :
    (bytesBlock b).getLsbD (127 - i) = (b.getD (i / 8) 0).getLsbD (7 - i % 8) := by
  have hbits : b.flatMap vecBits = unpack b 128 := by rw [← unpack_eq_flatMap, h]
  rw [bytesBlock_eq_bitsVec h, hbits]
  exact (bitsVec_bit 128 _ (unpack_length b 128) i hi).trans (by rw [getD_unpack, decide_eq_true hi, Bool.true_and])

/-- An 80-bit half and PKCS#7's tail are one block (R126). -/
theorem rmPad_engine {C : Config} {H : Bits} (he : C.padExtra = defaultConfig.padExtra) (hb : C.padByte = defaultConfig.padByte)
    (hH : H.length = 80) : rmPad C H = bbTobytes H ++ [0x06, 0x06, 0x06, 0x06, 0x06, 0x06] := by
  have hlen : (bbTobytes H).length = 10 := by rw [bbTobytes_length, hH]; rfl
  rw [rmPad_congr he hb, rmPad, pad_default, hlen]
  rfl

/-- Settles O42: the engine's padded half is one block, which RM_CBC enciphers in one turn, and whose bits are its bytes'. -/
theorem engineMaskIsOneCipherBlock : Obligations.EngineMaskIsOneCipherBlock := by
  unfold Obligations.EngineMaskIsOneCipherBlock
  refine ⟨fun C key T H m he hb hH hm => ?_, fun b h i hi => bytesBlock_bit h hi⟩
  rw [← rmPad_engine he hb hH]
  have hlen : (rmPad C H).length = 16 := by
    rw [rmPad_engine he hb hH, List.length_append, bbTobytes_length, hH]
    rfl
  have hone : rmPad C H ++ [] = rmPad C H := List.append_nil _
  cases hc : C.cipher key (bytesBlock (rmPad C H) ^^^ T) with
  | none => exact rmMask_of_fail (hone ▸ rmCbc_append_of_none hlen rfl hc)
  | some c =>
    have hcbc : rmCbc C key T (rmPad C H) = .ok (blockBytes c) := by
      rw [← hone, rmCbc_append_of_some hlen rfl hc]
      exact congrArg Except.ok (List.append_nil _)
    rw [rmMask_of_ok hcbc, if_neg (by omega), flatMap_vecBits_blockBytes]

end Sys2Proof.Machine
end

section
/-! SUPPORT. Proofs about the parameter derivation (R140 to R146). -/

namespace Sys2Proof.Machine

/-! ### What valid lengths have -/

/-- The round count is a ceiling, so the rounds cover four times the message (R142, R144). -/
theorem four_mul_le_psSplit_mul_psRounds {C : Config} {n : Nat} (h : psValid C n = true) : 4 * n ≤ psSplit C n * psRounds C n := by
  obtain ⟨-, hmin, -⟩ := (psValid_iff C n).1 h
  have hsplit : 0 < n - 80 := by omega
  rw [psSplit_valid h, psRounds_valid h, ← Nat.ceilDiv_eq_add_pred_div]
  exact le_smul_ceilDiv hsplit

/-- Settles O45: the formulas of a valid length, the bounds on `NMAX`, and the bounds on the round count. -/
theorem validLengthsHaveSaneParameters : Obligations.ValidLengthsHaveSaneParameters := by
  unfold Obligations.ValidLengthsHaveSaneParameters
  intro C n h
  obtain ⟨halign, hmin, hmax⟩ := (psValid_iff C n).1 h
  obtain ⟨-, hbound, -⟩ := nmax_bounds C
  obtain ⟨hlo, hhi⟩ := psRounds_bounds h
  have hcover := four_mul_le_psSplit_mul_psRounds h
  rw [psSplit_valid h] at hcover ⊢
  rw [psRem_valid h]
  refine ⟨?_, ?_, ?_, ?_, rfl, ?_, ?_, hlo, hhi, hcover, halign, rfl⟩ <;> omega

/-! ### The parameter operations applied alone -/

section
variable {s : State} (n : Nat)

theorem exec_psValid (hf : s.fault = none) : exec (.psValid n) s = .next { s with ret := some (.flag (psValid config n)) } :=
  perform_returns_value _ hf

theorem exec_psSplit (hf : s.fault = none) : exec (.psSplit n) s = .next { s with ret := some (.nat (psSplit config n)) } :=
  perform_returns_value _ hf

theorem exec_psRem (hf : s.fault = none) : exec (.psRem n) s = .next { s with ret := some (.nat (psRem config n)) } :=
  perform_returns_value _ hf

theorem exec_psRounds (hf : s.fault = none) : exec (.psRounds n) s = .next { s with ret := some (.nat (psRounds config n)) } :=
  perform_returns_value _ hf

end

/-- Settles O43: each operation returns its function of the length, which has the stated formula where the length is valid. -/
theorem parameterOperationsReturnTheirFormulas : Obligations.ParameterOperationsReturnTheirFormulas := by
  unfold Obligations.ParameterOperationsReturnTheirFormulas
  intro s n hf
  refine ⟨exec_psValid n hf, fun halign hmin hmax => ?_⟩
  have h : psValid config n = true := (psValid_iff config n).2 ⟨halign, hmin, hmax⟩
  rw [exec_psSplit n hf, exec_psRem n hf, exec_psRounds n hf, psSplit_valid h, psRem_valid h, psRounds_valid h]
  exact ⟨rfl, rfl, rfl⟩

section
variable {C : Config} {n : Nat}

theorem psSplit_invalid (h : psValid C n = false) : psSplit C n = C.splitUnstated n := by
  simp [psSplit, h]

theorem psRem_invalid (h : psValid C n = false) : psRem C n = C.remUnstated n := by
  simp [psRem, h]

theorem psRounds_invalid (h : psValid C n = false) : psRounds C n = C.roundsUnstated n := by
  simp [psRounds, h]

end

/-- Settles O44: the same operations, whose functions take the configuration's free values where the length is invalid. -/
theorem parameterOperationsRunOutsideTheirPrecondition : Obligations.ParameterOperationsRunOutsideTheirPrecondition := by
  unfold Obligations.ParameterOperationsRunOutsideTheirPrecondition
  intro s n hf h
  rw [exec_psSplit n hf, exec_psRem n hf, exec_psRounds n hf, psSplit_invalid h, psRem_invalid h, psRounds_invalid h]
  exact ⟨rfl, rfl, rfl⟩

/-! ### The table of the valid lengths -/

/-- The lengths from `MINLEN` to `NMAX` in steps of 8 bits, one for each registry bit (R143, R160). -/
def validLengths (C : Config) : List Nat := (List.range (C.kmax.val + 1)).map fun k => 88 + 8 * k

theorem psValid_iff_mem_validLengths (C : Config) (n : Nat) : psValid C n = true ↔ n ∈ validLengths C := by
  simp only [psValid_iff, validLengths, List.mem_map, List.mem_range, Config.nmax, Config.MINLEN]
  constructor
  · rintro ⟨halign, hmin, hmax⟩
    exact ⟨(n - 88) / 8, by omega, by omega⟩
  · rintro ⟨k, hk, rfl⟩
    omega

theorem validLengths_default {C : Config} (hC : C.kmax = 15) :
    validLengths C = [88, 96, 104, 112, 120, 128, 136, 144, 152, 160, 168, 176, 184, 192, 200, 208] := by
  rw [validLengths, hC]
  rfl

/-- Settles O46: the listed lengths are the valid ones, so every row is given by the formulas of R140 to R142 and R160. -/
theorem parameterTableForTheDefaultBound : Obligations.ParameterTableForTheDefaultBound := by
  unfold Obligations.ParameterTableForTheDefaultBound
  intro C hC
  rw [← validLengths_default hC]
  refine ⟨?_, psValid_iff_mem_validLengths C⟩
  calc (validLengths C).map (fun n => (regBit n, psSplit C n, psRem C n, psRounds C n))
    _ = (validLengths C).map fun n => (regBit n, n - 80, 80, (4 * n + (n - 80) - 1) / (n - 80)) := by
      refine List.map_congr_left fun n hn => ?_
      have h := (psValid_iff_mem_validLengths C n).2 hn
      rw [psSplit_valid h, psRem_valid h, psRounds_valid h]
    _ = _ := by
      rw [validLengths_default hC]
      rfl

end Sys2Proof.Machine
end

section
/-! SUPPORT. Proofs about the length registry (R160 to R164). -/

namespace Sys2Proof.Machine

/-! ### The registry bit -/

/-- The length that owns bit `k` (R160). -/
theorem regBit_length (k : Nat) : regBit (88 + 8 * k) = k := by
  simp only [regBit, Config.MINLEN]
  omega

theorem psValid_length {C : Config} {k : Nat} (hk : k ≤ C.kmax.val) : psValid C (88 + 8 * k) = true :=
  (psValid_iff_mem_validLengths C _).2 (List.mem_map_of_mem (List.mem_range.2 (Nat.lt_succ_of_le hk)))

/-- A valid length is the one its registry bit gives back (R160). -/
theorem length_regBit {C : Config} {n : Nat} (h : psValid C n = true) : 88 + 8 * regBit n = n := by
  obtain ⟨k, -, rfl⟩ := List.mem_map.1 ((psValid_iff_mem_validLengths C n).1 h)
  rw [regBit_length]

/-- Settles O47: `k ↦ 88 + 8k` is the inverse of the registry bit. -/
theorem registryBitIsABijection : Obligations.RegistryBitIsABijection := by
  unfold Obligations.RegistryBitIsABijection
  refine fun C => ⟨fun n hn => ⟨rfl, regBit_le hn⟩, fun n m hn hm hbit => ?_, fun k hk => ⟨_, psValid_length hk, regBit_length k⟩⟩
  rw [← length_regBit hn, ← length_regBit hm, hbit]

/-! ### The registry's operations applied alone -/

section
variable {C : Config} {n : Nat} {m : Word}

theorem lrRegister_invalid (m : Word) (hv : psValid C n = false) : lrRegister C n m = (.invalidLength, m) := by
  simp [lrRegister, hv]

theorem lrRegister_registered (hv : psValid C n = true) (hb : m.getLsbD (regBit n) = true) :
    lrRegister C n m = (.alreadyRegistered, m) := by
  simp [lrRegister, hv, hb]

theorem lrRegister_new (hv : psValid C n = true) (hb : m.getLsbD (regBit n) = false) :
    lrRegister C n m = (.registered, m ||| BitVec.ofNat 32 (2 ^ regBit n)) := by
  simp [lrRegister, hv, hb]

/-- The bit of a valid length is one of the word's, so registering adds exactly it (R29, R161). -/
theorem setRegBit_bit (m : Word) (hv : psValid C n = true) (k : Nat) :
    (m ||| BitVec.ofNat 32 (2 ^ regBit n)).getLsbD k = (m.getLsbD k || k == regBit n) := by
  have hle := regBit_le hv
  exact setBit_bit m (regBit n) k (by omega)

end

section
variable {s : State} (n : Nat)

theorem exec_lrEnsure (hf : s.fault = none) :
    exec (.lrEnsure n) s = .next { s with ret := some (.flag (lrEnsure config n s.regmap)) } :=
  perform_returns_value _ hf

theorem exec_lrRegister (hf : s.fault = none) : exec (.lrRegister n) s = .next { s with
    ret := some (.code (lrRegister config n s.regmap).1), regmap := (lrRegister config n s.regmap).2 } := by
  rw [exec, execLrRegister]
  exact perform_of_ok hf rfl

end

/-- Settles O48: each operation returns and stores what its function of the registry answers, by the three outcomes of a registration. -/
theorem registryOperationsAnswer : Obligations.RegistryOperationsAnswer := by
  unfold Obligations.RegistryOperationsAnswer
  intro s n hf
  rw [exec_lrRegister n hf]
  refine ⟨exec_lrEnsure n hf, fun hv => ?_, fun hv hb => ?_, fun hv hb => ?_⟩
  · rw [lrRegister_invalid s.regmap hv]
  · rw [lrRegister_registered hv hb]
  · rw [lrRegister_new hv hb]
    exact ⟨_, rfl, setRegBit_bit s.regmap hv⟩

/-! ### The registry under each instruction -/

@[simp] theorem loadKey_regmap (s : State) : (loadKey s).regmap = s.regmap := by
  rw [loadKey_eq]

@[simp] theorem issueCrypt_regmap (C : Config) (op : OpKind) (s : State) : (issueCrypt C op s).regmap = s.regmap := by
  obtain h | h | ⟨-, -, h⟩ := issueCrypt_cases C op s <;> (rw [h]; rfl)

@[simp] theorem writeReg_regmap (C : Config) (v : Word) (s : State) (r : Reg) : (writeReg C v s r).regmap = s.regmap := by
  cases r <;> rfl

@[simp] theorem advance_regmap (C : Config) (op : OpKind) (s : State) : (advance C op s).regmap = s.regmap := by
  obtain ⟨i, h⟩ | ⟨i, h, -⟩ := advance_cases C op s <;> simp [h]

theorem seqStep_regmap {C : Config} {op : OpKind} {s t : State} (h : seqStep C op s = .ok t) : t.regmap = s.regmap := by
  obtain ⟨rfl, -⟩ | ⟨-, -, rfl | ⟨R, -, rfl⟩⟩ := seqStep_next h
  · rfl
  · exact abort_regmap ..
  · exact advance_regmap ..

/-- Of the command words only REGLEN's reaches the registry, by registering `LEN` (R205, R164). -/
theorem dispatchWord_regmap (C : Config) (w : Word) (s : State) :
    (dispatchWord C w s).regmap = if w = 0x00000002 then (lrRegister C s.len.toNat s.regmap).2 else s.regmap := by
  by_cases hw : w = 0x00000002
  · subst hw
    rfl
  · simp only [dispatchWord, if_neg hw]
    split_ifs <;> simp

theorem exec_illegal_regmap {v : Word} {s t : State} (h : exec (.illegal v) s = .next t) : t.regmap = s.regmap := by
  obtain ⟨-, hok | ⟨f, -, rfl⟩⟩ := perform_next h
  · obtain ⟨-, rfl⟩ := command_next hok
    exact complete_regmap ..
  · exact raise_regmap ..

/-- What an instruction does to the registry: nothing, or a registration, and that only as REGLEN, as LR_REGISTER or ill formed, as
the WR that is a command (R164). -/
theorem exec_regmap {i : Instr} {s t : State} (h : exec i s = .next t) :
    t.regmap = s.regmap ∨
      (∃ n, t.regmap = (lrRegister config n s.regmap).2) ∧ (i = .reglen ∨ (∃ n, i = .lrRegister n) ∨ i.wf = false) := by
  obtain ⟨-, ⟨f, rfl⟩ | ⟨v, rfl⟩ | ⟨n, v, hi, rfl⟩ | ⟨-, w, rfl, hi⟩ | ⟨r, v, rfl⟩ | ⟨op, hseq, -⟩⟩ := exec_next h
  · exact .inl rfl
  · exact .inl rfl
  · exact .inr ⟨⟨n, rfl⟩, .inr (.inl ⟨n, hi⟩)⟩
  · by_cases hw : w = 0x00000002
    · subst hw
      obtain hi | ⟨v, rfl⟩ | rfl := hi
      · exact .inr ⟨⟨s.len.toNat, rfl⟩, .inl hi⟩
      · exact .inl (exec_illegal_regmap h)
      · exact .inr ⟨⟨s.len.toNat, rfl⟩, .inr (.inr rfl)⟩
    · exact .inl (by rw [dispatchWord_regmap, if_neg hw])
  · exact .inl (writeReg_regmap ..)
  · exact .inl (seqStep_regmap hseq)

/-- Settles O16: an instruction that registers is REGLEN, LR_REGISTER or ill formed. -/
theorem onlyReglenRegisters : Obligations.OnlyReglenRegisters := by
  unfold Obligations.OnlyReglenRegisters
  intro i s t hexec hwf hreglen hregister
  obtain hkeep | ⟨-, hi | ⟨n, hi⟩ | hi⟩ := exec_regmap hexec
  · exact hkeep
  · exact absurd hi hreglen
  · exact absurd hi (hregister n)
  · exact nomatch hwf.symm.trans hi

theorem exec_keeps_registry_bit {i : Instr} {s t : State} {k : Nat} (h : exec i s = .next t)
    (hk : s.regmap.getLsbD k = true) : t.regmap.getLsbD k = true := by
  obtain hkeep | ⟨⟨n, hreg⟩, -⟩ := exec_regmap h
  · rwa [hkeep]
  · rw [hreg]
    exact lrRegister_keeps_bit config n hk

/-- Settles O14: a step is a reset, or takes an event off the port and performs at most one instruction, which keeps every bit. -/
theorem registryNeverShrinks : Obligations.RegistryNeverShrinks := by
  unfold Obligations.RegistryNeverShrinks
  intro s t hstep
  obtain ⟨hr, rest, rfl⟩ | ⟨hr, -, rest, rfl | ⟨i, hexec, -⟩⟩ := step_next hstep
  · exact ⟨fun h => (nomatch h.symm.trans hr), fun _ => rfl⟩
  · exact ⟨fun _ _ hk => hk, fun h => nomatch h.symm.trans hr⟩
  · exact ⟨fun _ _ hk => exec_keeps_registry_bit (s := { s with port := rest }) hexec hk, fun h => nomatch h.symm.trans hr⟩

end Sys2Proof.Machine
end

section
/-! SUPPORT. Proofs about the Feistel rounds and their sequences (R180 to R186). -/

namespace Sys2Proof.Machine

/-! ### One round, on a message given as its two parts -/

theorem feRound_enc (C : Config) (key : Block) (X : Bits) (T : Block) : feRound C .enc key X T = feRoundEnc C key X T := rfl

theorem feRound_dec (C : Config) (key : Block) (Y : Bits) (T : Block) : feRound C .dec key Y T = feRoundDec C key Y T := rfl

section
variable {C : Config} {key T : Block} {A B D X Y : Bits}

/-- The mask of a round on a valid length fails with the cipher, or has the bits the round asks for: they are at most one block (R144, R191). -/
theorem rmMask_of_valid {n : Nat} (key T : Block) (H : Bits) (hv : psValid C n = true) :
    rmMask C key T H (n - 80) = .error .fail ∨ ∃ F, rmMask C key T H (n - 80) = .ok F ∧ F.length = n - 80 := by
  obtain ⟨-, -, hn⟩ := (psValid_iff C n).1 hv
  obtain ⟨-, hmax, -⟩ := nmax_bounds C
  obtain ⟨-, hpad⟩ := rmPad_length C H
  exact rmMask_cases C (by omega)

/-- The forward round masks the first part and puts it behind the last 80 bits (R180). -/
theorem feRoundEnc_append (hv : psValid C (A ++ B).length = true) (hB : B.length = 80) :
    feRoundEnc C key (A ++ B) T = (rmMask C key T B A.length).map fun F => B ++ List.zipWith Bool.xor A F := by
  have hsplit : (A ++ B).length - 80 = A.length := by rw [List.length_append, hB, Nat.add_sub_cancel]
  have hfirst : bbSlice (A ++ B) 0 A.length = .ok A := by simp [bbSlice]
  have hlast : bbSlice (A ++ B) A.length (A ++ B).length = .ok B := by simp [bbSlice]
  have hmask := rmMask_of_valid key T B hv
  rw [hsplit] at hmask
  simp only [feRoundEnc, psSplit_valid hv, hsplit, hfirst, hlast, bind, Except.bind]
  obtain hfail | ⟨F, hF, hl⟩ := hmask
  · rw [hfail]
    rfl
  · simp only [hF, bbXor_ok hl.symm]
    rfl

/-- The reverse round unmasks the last part and puts it before the first 80 bits (R181). -/
theorem feRoundDec_append (hv : psValid C (B ++ D).length = true) (hB : B.length = 80) :
    feRoundDec C key (B ++ D) T = (rmMask C key T B D.length).map fun F => List.zipWith Bool.xor D F ++ B := by
  have hsplit : (B ++ D).length - 80 = D.length := by rw [List.length_append, hB, Nat.add_sub_cancel_left]
  have hfirst : bbSlice (B ++ D) 0 80 = .ok B := by simp [bbSlice, ← hB]
  have hlast : bbSlice (B ++ D) 80 (B ++ D).length = .ok D := by simp [bbSlice, ← hB]
  have hmask := rmMask_of_valid key T B hv
  rw [hsplit] at hmask
  simp only [feRoundDec, psSplit_valid hv, psRem_valid hv, hsplit, hfirst, hlast, bind, Except.bind]
  obtain hfail | ⟨F, hF, hl⟩ := hmask
  · rw [hfail]
    rfl
  · simp only [hF, bbXor_ok hl.symm]
    rfl

/-! ### A message cut into the parts of a round -/

theorem exists_last_part (hv : psValid C X.length = true) : ∃ A B, X = A ++ B ∧ B.length = 80 := by
  obtain ⟨-, hmin, -⟩ := (psValid_iff C _).1 hv
  exact ⟨X.take (X.length - 80), X.drop (X.length - 80), (List.take_append_drop ..).symm, by rw [List.length_drop]; omega⟩

theorem exists_first_part (hv : psValid C X.length = true) : ∃ B D, X = B ++ D ∧ B.length = 80 := by
  obtain ⟨-, hmin, -⟩ := (psValid_iff C _).1 hv
  exact ⟨X.take 80, X.drop 80, (List.take_append_drop ..).symm, List.length_take_of_le (by omega)⟩

/-- The forward round on a message cut at `n - 80` (R180). -/
theorem feRoundEnc_valid (hv : psValid C X.length = true) :
    feRoundEnc C key X T = (rmMask C key T (X.drop (X.length - 80)) (X.length - 80)).map fun F =>
      X.drop (X.length - 80) ++ List.zipWith Bool.xor (X.take (X.length - 80)) F := by
  obtain ⟨A, B, rfl, hB⟩ := exists_last_part hv
  simp [feRoundEnc_append hv hB, hB]

/-- The reverse round on a message cut at 80 (R181). -/
theorem feRoundDec_valid (hv : psValid C Y.length = true) :
    feRoundDec C key Y T = (rmMask C key T (Y.take 80) (Y.length - 80)).map fun F =>
      List.zipWith Bool.xor (Y.drop 80) F ++ Y.take 80 := by
  obtain ⟨B, D, rfl, hB⟩ := exists_first_part hv
  simp [feRoundDec_append hv hB, hB]

/-! ### A round undone -/

theorem ok_of_map_ok {α β : Type} {r : Dp α} {g : α → β} {b : β} (h : r.map g = .ok b) : ∃ a, r = .ok a ∧ b = g a := by
  cases r with
  | error e => cases h
  | ok a => cases h; exact ⟨a, rfl, rfl⟩

/-- A mask that is answered has the length asked for (R124). -/
theorem rmMask_length {H F : Bits} {m : Nat} (h : rmMask C key T H m = .ok F) : F.length = m := by
  have hm : m ≤ 8 * (rmPad C H).length := by
    by_contra hlt
    obtain hfail | ⟨O, hO⟩ := rmCbc_fails_or_answers C key T (rmPad C H)
    · cases (rmMask_of_fail hfail).symm.trans h
    · rw [rmMask_of_ok hO, if_pos (by omega)] at h
      cases h
  obtain hfail | ⟨F', hF, hl⟩ := rmMask_cases C hm (key := key) (T := T)
  · cases hfail.symm.trans h
  · cases hF.symm.trans h
    exact hl

/-- Masking twice with one mask is no change (R106). -/
theorem xor_mask_twice : ∀ {A F : Bits}, F.length = A.length → List.zipWith Bool.xor (List.zipWith Bool.xor A F) F = A
  | [], _, _ => rfl
  | a :: A, f :: F, h => by
    rw [List.zipWith_cons_cons, List.zipWith_cons_cons, xor_mask_twice (Nat.succ.inj h), Bool.xor_assoc, Bool.xor_self, Bool.xor_false]

/-- The reverse round takes the same mask, from the 80 bits that the forward one left alone (R182). -/
theorem feRoundDec_feRoundEnc (hv : psValid C X.length = true) (h : feRoundEnc C key X T = .ok Y) : feRoundDec C key Y T = .ok X := by
  have hlen : Y.length = X.length := feRound_length (op := .enc) hv h
  obtain ⟨A, B, rfl, hB⟩ := exists_last_part hv
  rw [feRoundEnc_append hv hB] at h
  obtain ⟨F, hF, rfl⟩ := ok_of_map_ok h
  have hl := rmMask_length hF
  rw [feRoundDec_append (by rwa [hlen]) hB, List.length_zipWith, hl, Nat.min_self, hF]
  exact congrArg (fun Z => Except.ok (Z ++ B)) (xor_mask_twice hl)

/-- The forward round takes the same mask, from the 80 bits that the reverse one left alone (R182). -/
theorem feRoundEnc_feRoundDec (hv : psValid C X.length = true) (h : feRoundDec C key X T = .ok Y) : feRoundEnc C key Y T = .ok X := by
  have hlen : Y.length = X.length := feRound_length (op := .dec) hv h
  obtain ⟨B, D, rfl, hB⟩ := exists_first_part hv
  rw [feRoundDec_append hv hB] at h
  obtain ⟨F, hF, rfl⟩ := ok_of_map_ok h
  have hl := rmMask_length hF
  rw [feRoundEnc_append (by rwa [hlen]) hB, List.length_zipWith, hl, Nat.min_self, hF]
  exact congrArg (fun Z => Except.ok (B ++ Z)) (xor_mask_twice hl)

end

/-- Settles O51: a round keeps the length and leaves the 80 bits its mask comes from alone, so the other round takes the same mask. -/
theorem roundsAreInverse : Obligations.RoundsAreInverse := by
  unfold Obligations.RoundsAreInverse
  intro C key T X Y hv
  exact ⟨fun h => ⟨feRound_length (op := .enc) hv h, feRoundDec_feRoundEnc hv h⟩,
    fun h => ⟨feRound_length (op := .dec) hv h, feRoundEnc_feRoundDec hv h⟩⟩

/-! ### The sequences undone -/

/-- The operation whose rounds undo those of an operation (R182). -/
def OpKind.opposite : OpKind → OpKind
  | .enc => .dec
  | .dec => .enc

section
variable {C : Config} {op : OpKind} {key T : Block}

theorem feRound_opposite {X Y : Bits} (hv : psValid C X.length = true) (h : feRound C op key X T = .ok Y) :
    feRound C op.opposite key Y T = .ok X := by
  cases op with
  | enc => exact feRoundDec_feRoundEnc hv h
  | dec => exact feRoundEnc_feRoundDec hv h

theorem feRounds_length {k : Nat} {X Y : Bits} (hv : psValid C X.length = true) (h : feRounds C op key T k X = .ok Y) :
    Y.length = X.length := by
  obtain hfail | ⟨R, hok, hlen⟩ := feRounds_cases C k hv (op := op) (key := key) (T := T)
  · exact nomatch h.symm.trans hfail
  · cases h.symm.trans hok; exact hlen

/-- The opposite rounds undo a sequence from its end: the last of them undoes its first round (R186). -/
theorem feRounds_opposite : ∀ (k : Nat) {X Y : Bits}, psValid C X.length = true → feRounds C op key T k X = .ok Y →
    feRounds C op.opposite key T k Y = .ok X
  | 0, X, Y, _, h => by cases h; rfl
  | k + 1, X, Y, hv, h => by
    rw [feRounds] at h
    split at h
    · rename_i R hR
      have hback := feRounds_opposite k (by rwa [feRound_length hv hR]) h
      rw [feRounds_succ, hback]
      exact feRound_opposite hv hR
    · cases h

end

/-- Settles O53: both sequences have the rounds of the one length they keep, and the opposite rounds undo them one by one. -/
theorem sequencesRoundTrip : Obligations.SequencesRoundTrip := by
  unfold Obligations.SequencesRoundTrip
  intro C key T X Y hv
  refine ⟨fun h => ?_, fun h => ?_⟩
  · have hlen := feRounds_length hv h
    exact ⟨hlen, by rw [feDecrypt, hlen]; exact feRounds_opposite _ hv h⟩
  · have hlen := feRounds_length hv h
    exact ⟨hlen, by rw [feEncrypt, hlen]; exact feRounds_opposite _ hv h⟩

/-! ### The Feistel operations applied alone -/

/-- A datapath operation that raises no fault returns `FAIL` if it fails, else its value, and nothing else changes (R12, R17). -/
theorem perform_returns_of_not_raised {α : Type} {p : α → Prop} {wrap : α → Value} {s : State} {r : Dp α} {v : Value}
    (hf : s.fault = none) (hr : r = .error .fail ∨ ∃ a, r = .ok a ∧ p a)
    (hfail : r = .error .fail → v = .fail) (hok : ∀ a, r = .ok a → v = wrap a) :
    perform s (returns (r.map wrap)) = .next { s with ret := some v } := by
  obtain h | ⟨a, h, -⟩ := hr
  · rw [hfail h]
    exact perform_returns_of_fail hf h
  · rw [hok a h]
    exact perform_returns_of_ok hf h

theorem map_map_dp {α β γ : Type} (g : α → β) (k : β → γ) (r : Dp α) : (r.map g).map k = r.map fun a => k (g a) := by
  cases r <;> rfl

theorem exec_feRoundEnc (X : Bits) (T : Block) (s : State) :
    exec (.feRoundEnc X T) s = perform s (returns ((feRoundEnc config s.key X T).map .bits)) :=
  perform_congr rfl

theorem exec_feRoundDec (Y : Bits) (T : Block) (s : State) :
    exec (.feRoundDec Y T) s = perform s (returns ((feRoundDec config s.key Y T).map .bits)) :=
  perform_congr rfl

/-- Settles O49: on a valid length the mask raises no fault, so the round returns its value or `FAIL`. -/
theorem forwardRoundMasksTheFirstPart : Obligations.ForwardRoundMasksTheFirstPart := by
  unfold Obligations.ForwardRoundMasksTheFirstPart
  intro s X T hf hv
  rw [exec_feRoundEnc, feRoundEnc_valid hv, map_map_dp]
  exact perform_returns_of_not_raised hf (rmMask_of_valid s.key T _ hv) (fun h => by rw [h]) (fun F h => by rw [h])

/-- Settles O50: on a valid length the mask raises no fault, so the round returns its value or `FAIL`. -/
theorem reverseRoundMasksTheLastPart : Obligations.ReverseRoundMasksTheLastPart := by
  unfold Obligations.ReverseRoundMasksTheLastPart
  intro s Y T hf hv
  rw [exec_feRoundDec, feRoundDec_valid hv, map_map_dp]
  exact perform_returns_of_not_raised hf (rmMask_of_valid s.key T _ hv) (fun h => by rw [h]) (fun F h => by rw [h])

theorem exec_feEncrypt (T : Block) (X : Bits) (s : State) :
    exec (.feEncrypt T X) s = perform s (returns ((feEncrypt config s.key T X).map .bits)) :=
  perform_congr rfl

theorem exec_feDecrypt (T : Block) (Y : Bits) (s : State) :
    exec (.feDecrypt T Y) s = perform s (returns ((feDecrypt config s.key T Y).map .bits)) :=
  perform_congr rfl

/-- A sequence is its rounds bound together: a failure stays to the end (R183, R184). -/
theorem feRounds_eq_iterate (C : Config) (op : OpKind) (key T : Block) : ∀ (k : Nat) (X : Bits),
    feRounds C op key T k X = (fun r : Dp Bits => r.bind fun Z => feRound C op key Z T)^[k] (.ok X)
  | 0, _ => rfl
  | k + 1, X => by
    rw [feRounds, Function.iterate_succ_apply, Except.bind]
    cases feRound C op key X T with
    | ok R => exact feRounds_eq_iterate C op key T k R
    | error e => exact (Function.iterate_fixed rfl k).symm

theorem feEncrypt_eq_iterate (C : Config) (key T : Block) (X : Bits) :
    feEncrypt C key T X = (fun r : Dp Bits => r.bind fun Z => feRoundEnc C key Z T)^[psRounds C X.length] (.ok X) :=
  feRounds_eq_iterate C .enc key T _ X

theorem feDecrypt_eq_iterate (C : Config) (key T : Block) (X : Bits) :
    feDecrypt C key T X = (fun r : Dp Bits => r.bind fun Z => feRoundDec C key Z T)^[psRounds C X.length] (.ok X) :=
  feRounds_eq_iterate C .dec key T _ X

/-- Settles O52: on a valid length no round raises a fault, so a sequence returns `FAIL` or its value, and that is the iterated rounds'. -/
theorem sequencesAreTheirRounds : Obligations.SequencesAreTheirRounds := by
  unfold Obligations.SequencesAreTheirRounds
  intro s T X hf hv
  rw [exec_feEncrypt, exec_feDecrypt, ← feEncrypt_eq_iterate, ← feDecrypt_eq_iterate]
  have hcases (op : OpKind) := feRounds_cases config (psRounds config X.length) hv (op := op) (key := s.key) (T := T)
  exact ⟨perform_returns_of_not_raised hf (hcases .enc) (fun h => by rw [h]) (fun R h => by rw [h]),
    perform_returns_of_not_raised hf (hcases .dec) (fun h => by rw [h]) (fun R h => by rw [h])⟩

end Sys2Proof.Machine
end

section
/-! SUPPORT. Proofs about the sequencer's steps (R187, R188, R266). -/

namespace Sys2Proof.Machine

/-! ### A turn -/

theorem step_of_turn {s : State} {rest : List Event} (hp : s.port = .turn :: rest ∨ (s.port = [] ∧ rest = [])) :
    step s = turnEvent { s with port := rest } := by
  obtain hp | ⟨hp, rfl⟩ := hp
  · simp only [step, hp]
  · have hs : { s with port := [] } = s := by rw [← hp]
    rw [hs]
    simp only [step, hp]

/-- Settles O6: a turn of an unfaulted machine performs the step of the operation in progress, if one is. -/
theorem stepRunsTheSequencer : Obligations.StepRunsTheSequencer := by
  unfold Obligations.StepRunsTheSequencer
  intro s rest hf hp
  rw [step_of_turn hp]
  simp only [turnEvent, seqInstr, hf]
  cases s.OP <;> rfl

/-! ### A sequencer step -/

theorem exec_seqInstr (s : State) : exec (seqInstr s) s = perform s (seqStep config s.OP) := by
  unfold seqInstr
  cases s.OP <;> rfl

theorem seqStep_of_disabled (C : Config) {op : OpKind} {s : State} (h : s.busy = false ∨ s.OP ≠ op) : seqStep C op s = .ok s := by
  refine if_neg fun ⟨hb, ho⟩ => ?_
  obtain hidle | hother := h
  · exact nomatch hb.symm.trans hidle
  · exact hother ho

/-- Settles O56: neither step is enabled without a command in progress, nor by the other operation. -/
theorem disabledSequencerStepChangesNothing : Obligations.DisabledSequencerStepChangesNothing := by
  unfold Obligations.DisabledSequencerStepChangesNothing
  intro s hf
  exact ⟨fun h => perform_of_ok hf (seqStep_of_disabled config (h.imp_right fun ho => by simp [ho])),
    fun h => perform_of_ok hf (seqStep_of_disabled config (h.imp_right fun ho => by simp [ho]))⟩

/-- The message of the last round goes out (R210). -/
theorem finish_roundDone (C : Config) {s : State} {R : Bits} (hR : R.length = s.NL.toNat) :
    finish C { s with W := R ++ zeros (C.nmax - s.NL.toNat) } = { s with
      W := zeros C.nmax, TL := 0, dout := bitsWords (R ++ zeros (C.nmax - s.NL.toNat)), doutValid := true, result := .ok, busy := false } := by
  simp only [finish, wipe, List.take_left' hR]

/-- Settles O54: the round aborts the command, ends it when the counter has come to `rounds(NL)`, or goes on. -/
theorem encStepPerformsOneRound : Obligations.EncStepPerformsOneRound := by
  unfold Obligations.EncStepPerformsOneRound
  intro s hf hb ho hw hv
  obtain ⟨hround, hstep⟩ | ⟨R, hround, hlen, hstep⟩ := seqStep_cases config hb ho hw hv
  · rw [← feRound_enc, hround]
    exact perform_of_ok hf hstep
  · rw [← feRound_enc, hround]
    refine (perform_of_ok hf hstep).trans ?_
    simp only [advance]
    split
    · exact congrArg _ (finish_roundDone config (s := { s with I := s.I + 1 }) hlen)
    · rfl

/-- Settles O55: the round aborts the command, ends it when the counter is at round 0, or goes on. -/
theorem decStepPerformsOneRound : Obligations.DecStepPerformsOneRound := by
  unfold Obligations.DecStepPerformsOneRound
  intro s hf hb ho hw hv
  obtain ⟨hround, hstep⟩ | ⟨R, hround, hlen, hstep⟩ := seqStep_cases config hb ho hw hv
  · rw [← feRound_dec, hround]
    exact perform_of_ok hf hstep
  · rw [← feRound_dec, hround]
    refine (perform_of_ok hf hstep).trans ?_
    simp only [advance]
    split
    · exact congrArg _ (finish_roundDone config hlen)
    · rfl

end Sys2Proof.Machine
end

section
/-! SUPPORT. Proofs about what a host access can do (R61, R190), and about the faults a step can raise from a good state (R193). -/

namespace Sys2Proof.Machine

/-! ### A host access -/

/-- What an access performs: a read, or a write, which at `CMD` is a command (R70, R212, R213). -/
def accessBody (C : Config) (a : Access) : State → Except Fault State :=
  match a.dir with
  | .read => busRead C a.off a.size
  | .write => busWrite C a.off a.size a.data

theorem busWrite_cmd (C : Config) (v : Word) (s : State) : busWrite C 0x00 4 v s = command v (dispatchWord C v) s := by
  have hcmd : accessed .write 0x00 4 = .ok .cmd := accessed_register .write .cmd rfl
  simp only [busWrite, hcmd]

theorem exec_decode (a : Access) (s : State) : exec (decode a) s = perform s (accessBody config a) := by
  obtain ⟨dir, off, size, v⟩ := a
  cases dir with
  | read => rfl
  | write =>
    by_cases hcmd : off = 0x00 ∧ size = 4
    · obtain ⟨rfl, rfl⟩ := hcmd
      exact (exec_decodeWord s v).trans (perform_congr (busWrite_cmd config v s).symm)
    · rw [decode_write v hcmd]
      rfl

theorem busRead_error {C : Config} {off : BitVec 8} {size : Nat} {s : State} {f : Fault} (h : busRead C off size s = .error f) :
    f.isHostFault = true := by
  unfold busRead at h
  split at h
  · cases h
  · rename_i ha
    cases h
    rw [accessed_error ha]
    rfl

theorem command_error {v : Word} {body : State → State} {s : State} {f : Fault} (h : command v body s = .error f) :
    f.isHostFault = true := by
  unfold command at h
  split at h
  · cases h; rfl
  · cases h

theorem busWrite_error {C : Config} {off : BitVec 8} {size : Nat} {v : Word} {s : State} {f : Fault}
    (h : busWrite C off size v s = .error f) : f.isHostFault = true := by
  unfold busWrite at h
  split at h
  · exact command_error h
  · cases h
  · rename_i ha
    cases h
    rw [accessed_error ha]
    rfl

/-- What an access that answers a next state can have done: raised a fault the host can cause and nothing else; returned a register;
issued a command while none was in progress; or stored into an operand register. -/
theorem access_next {a : Access} {s t : State} (h : exec (decode a) s = .next t) :
    s.fault = none ∧
    ((∃ f, f.isHostFault = true ∧ t = raise f s) ∨ (∃ v, t = { s with ret := some v }) ∨
      (s.busy = false ∧ t = dispatchWord config a.data s) ∨ ∃ r, t = writeReg config a.data s r) := by
  rw [exec_decode] at h
  obtain ⟨hf, hbody⟩ := perform_next h
  refine ⟨hf, ?_⟩
  unfold accessBody at hbody
  cases hd : a.dir with
  | read =>
    rw [hd] at hbody
    obtain hok | ⟨f, herr, ht⟩ := hbody
    · exact .inr (.inl (busRead_next hok))
    · exact .inl ⟨f, busRead_error herr, ht⟩
  | write =>
    rw [hd] at hbody
    obtain hok | ⟨f, herr, ht⟩ := hbody
    · obtain ⟨hb, ht, -⟩ | hstore := busWrite_next hok
      · exact .inr (.inr (.inl ⟨hb, ht⟩))
      · exact .inr (.inr (.inr hstore))
    · exact .inl ⟨f, busWrite_error herr, ht⟩

/-- Settles O29: while a command is in progress an access raises a fault, reads, or stores into an operand register. -/
theorem hostAccessLeavesTheBusyCommandAlone : Obligations.HostAccessLeavesTheBusyCommandAlone := by
  unfold Obligations.HostAccessLeavesTheBusyCommandAlone
  intro s t a hb h
  obtain ⟨-, ⟨f, -, rfl⟩ | ⟨v, rfl⟩ | ⟨hidle, -⟩ | ⟨r, rfl⟩⟩ := access_next h
  · exact ⟨rfl, rfl, rfl, rfl, rfl, rfl, hb⟩
  · exact ⟨rfl, rfl, rfl, rfl, rfl, rfl, hb⟩
  · exact nomatch hb.symm.trans hidle
  · cases r <;> exact ⟨rfl, rfl, rfl, rfl, rfl, rfl, hb⟩

/-! ### The faults of a step -/

theorem issueCrypt_fault (C : Config) (op : OpKind) (s : State) : (issueCrypt C op s).fault = s.fault := by
  obtain h | h | ⟨-, -, h⟩ := issueCrypt_cases C op s <;> (rw [h]; rfl)

theorem dispatchWord_fault (C : Config) (w : Word) (s : State) : (dispatchWord C w s).fault = s.fault := by
  obtain h | h | ⟨op, h⟩ | h := dispatchWord_cases C w s <;> rw [h]
  · rw [loadKey_eq]
  · rfl
  · exact issueCrypt_fault C op s
  · rfl

theorem advance_fault (C : Config) (op : OpKind) (s : State) : (advance C op s).fault = s.fault := by
  obtain ⟨i, h⟩ | ⟨i, h, -⟩ := advance_cases C op s <;> simp [h]

/-- The only faults of an access are those a host can cause (R193). -/
theorem access_fault {a : Access} {s t : State} {f : Fault} (h : exec (decode a) s = .next t) (ht : t.fault = some f) :
    f.isHostFault = true := by
  obtain ⟨hf, ⟨g, hg, rfl⟩ | ⟨v, rfl⟩ | ⟨-, rfl⟩ | ⟨r, rfl⟩⟩ := access_next h
  · cases ht; exact hg
  · exact nomatch hf.symm.trans ht
  · exact nomatch (hf.symm.trans (dispatchWord_fault ..).symm).trans ht
  · exact nomatch (hf.symm.trans (writeReg_fault ..).symm).trans ht

/-- The step of the operation in progress raises no fault: the length is registered, so valid, and the work buffer is whole (R191). -/
theorem seqInstr_fault {s t : State} (hi : Inv config s) (hb : s.busy = true) (h : exec (seqInstr s) s = .next t) : t.fault = none := by
  rw [exec_seqInstr] at h
  obtain ⟨hf, -⟩ := perform_next h
  obtain ⟨-, hlen, -⟩ := hi.busyReady hb
  obtain ⟨-, hstep⟩ | ⟨R, -, -, hstep⟩ := seqStep_cases config hb rfl hi.workLength (psValid_of_lrEnsure hlen)
  · rw [perform_of_ok hf hstep] at h
    cases h
    exact hf
  · rw [perform_of_ok hf hstep] at h
    cases h
    exact (advance_fault ..).trans hf

/-- Settles O11: a step is a reset, an unused turn, an access or a round in progress, and of these only an access raises faults. -/
theorem stepNeverRaisesADatapathFault : Obligations.StepNeverRaisesADatapathFault := by
  unfold Obligations.StepNeverRaisesADatapathFault
  intro s t hi hstep f ht
  obtain ⟨-, rest, rfl⟩ | ⟨-, hf, rest, rfl | ⟨i, hexec, ⟨a, rfl⟩ | ⟨hb, rfl⟩⟩⟩ := step_next hstep
  · cases ht
  · exact nomatch hf.symm.trans ht
  · exact access_fault hexec ht
  · exact nomatch (seqInstr_fault (s := { s with port := rest }) { hi with } hb hexec).symm.trans ht

end Sys2Proof.Machine
end

section
/-! SUPPORT. Proofs about the host commands (R200 to R207). -/

namespace Sys2Proof.Machine

/-! ### A command word -/

/-- With no command in progress a command word is dispatched (R200). -/
theorem exec_decodeWord_of_idle {s : State} (w : Word) (hf : s.fault = none) (hb : s.busy = false) :
    exec (decodeWord w) s = .next (dispatchWord config w s) :=
  (exec_decodeWord s w).trans (perform_of_ok hf (command_of_idle _ hb))

/-- While a command is in progress a command word is a protocol violation and nothing else (R200, R233). -/
theorem exec_decodeWord_of_busy {s : State} (w : Word) (hf : s.fault = none) (hb : s.busy = true) :
    exec (decodeWord w) s = .next (raise (.hostProtocolViolation w) s) :=
  (exec_decodeWord s w).trans (perform_of_error hf (command_of_busy _ hb))

/-- Completing a command when none is in progress changes `RESULT` only (R201). -/
theorem complete_of_idle {s : State} (c : ResultCode) (hb : s.busy = false) : complete c s = { s with result := c } := by
  rw [complete, ← hb]

/-- Settles O22: a 32-bit write at `CMD` is its command word, and the gate comes before the dispatch. -/
theorem commandWhileBusyViolatesTheProtocol : Obligations.CommandWhileBusyViolatesTheProtocol := by
  unfold Obligations.CommandWhileBusyViolatesTheProtocol
  exact fun s w hf hb => exec_decodeWord_of_busy w hf hb

theorem dispatchWord_of_not_legal (C : Config) {w : Word} (s : State) (h1 : w ≠ 1) (h2 : w ≠ 2) (h3 : w ≠ 3) (h4 : w ≠ 4) :
    dispatchWord C w s = complete .illegalCommand s := by
  rw [dispatchWord, if_neg h1, if_neg h2, if_neg h3, if_neg h4]

/-- Settles O19: the word decodes to ILLEGAL, whose gate and effect are those of the word. -/
theorem illegalCommandOnlyReports : Obligations.IllegalCommandOnlyReports := by
  unfold Obligations.IllegalCommandOnlyReports
  intro s w hf h1 h2 h3 h4
  obtain ⟨-, -, -, -, -, -, hdecode⟩ := commandWordsDecodeToTheirCommands
  have hill : decodeWord w = .illegal w := hdecode w h1 h2 h3 h4
  refine ⟨hill, fun hb => ?_, fun hb => ?_⟩
  · rw [← hill, exec_decodeWord_of_idle w hf hb, dispatchWord_of_not_legal config s h1 h2 h3 h4, complete_of_idle _ hb]
  · rw [← hill, exec_decodeWord_of_busy w hf hb, raise]

/-! ### LOADKEY and REGLEN -/

/-- Settles O17: LOADKEY's update, with `KEY_VALID` deciding the key and the result. -/
theorem loadkeyLoadsTheKeyOnce : Obligations.LoadkeyLoadsTheKeyOnce := by
  unfold Obligations.LoadkeyLoadsTheKeyOnce
  refine ⟨rfl, fun s hf hb => ?_⟩
  have hexec : exec .loadkey s = .next (loadKey s) := exec_decodeWord_of_idle 0x00000001 hf hb
  rw [hexec]
  refine ⟨fun hk => ?_, fun hk => ?_⟩
  · simp only [loadKey, hk, Bool.false_eq_true, if_false]
    exact congrArg _ (complete_of_idle _ hb)
  · simp only [loadKey, hk, if_true]
    exact congrArg _ (complete_of_idle _ hb)

/-- REGLEN stores and reports what the registration of `LEN` answers (R205). -/
theorem exec_reglen {s : State} {c : ResultCode} {m : Word} (hf : s.fault = none) (hb : s.busy = false)
    (h : lrRegister config s.len.toNat s.regmap = (c, m)) : exec .reglen s = .next { s with result := c, regmap := m } := by
  have hexec : exec .reglen s = .next (regLen config s) := exec_decodeWord_of_idle 0x00000002 hf hb
  rw [hexec, regLen, h, complete, ← hb]

/-- Settles O18: REGLEN in the three outcomes of a registration. -/
theorem reglenRegistersALength : Obligations.ReglenRegistersALength := by
  unfold Obligations.ReglenRegistersALength
  refine ⟨rfl, fun s hf hb => ⟨fun hv => ?_, fun hv hbit => ?_, fun hv hbit => ?_⟩⟩
  · exact exec_reglen hf hb (lrRegister_invalid s.regmap hv)
  · exact exec_reglen hf hb (lrRegister_registered hv hbit)
  · exact ⟨_, exec_reglen hf hb (lrRegister_new hv hbit), setRegBit_bit s.regmap hv⟩

/-! ### The issue of ENC and DEC -/

section
variable {C : Config} {s : State} (op : OpKind)

theorem issueCrypt_of_noKey (hk : s.keyValid = false) : issueCrypt C op s = complete .noKey (clearOutput s) := by
  simp [issueCrypt, clearOutput, hk]

theorem issueCrypt_of_unregistered (hk : s.keyValid = true) (hl : lrEnsure C s.len.toNat s.regmap = false) :
    issueCrypt C op s = complete .unregisteredLength (clearOutput s) := by
  simp [issueCrypt, clearOutput, hk, hl]

theorem issueCrypt_of_ready (hk : s.keyValid = true) (hl : lrEnsure C s.len.toNat s.regmap = true) :
    issueCrypt C op s = goBusy C op (clearOutput s) := by
  simp [issueCrypt, clearOutput, hk, hl]

end

/-- The instruction that issues an operation (R208, R209). -/
def OpKind.instr : OpKind → Instr
  | .enc => .enc
  | .dec => .dec

/-- The command word that issues an operation (R71). -/
def OpKind.word : OpKind → Word
  | .enc => 0x00000003
  | .dec => 0x00000004

theorem dispatchWord_opWord (C : Config) (op : OpKind) (s : State) : dispatchWord C op.word s = issueCrypt C op s := by
  cases op <;> rfl

theorem exec_crypt_of_idle {s : State} (op : OpKind) (hf : s.fault = none) (hb : s.busy = false) :
    exec op.instr s = .next (issueCrypt config op s) := by
  rw [← dispatchWord_opWord]
  cases op with
  | enc => exact exec_decodeWord_of_idle OpKind.enc.word hf hb
  | dec => exact exec_decodeWord_of_idle OpKind.dec.word hf hb

/-- Settles O20: an issue clears the output, and its first check that fails gives the result. -/
theorem cryptIssueChecksInOrder : Obligations.CryptIssueChecksInOrder := by
  unfold Obligations.CryptIssueChecksInOrder
  intro s i hi hf hb
  obtain ⟨op, rfl⟩ : ∃ op : OpKind, i = op.instr := hi.elim (fun h => ⟨.enc, h⟩) (fun h => ⟨.dec, h⟩)
  rw [exec_crypt_of_idle op hf hb]
  refine ⟨fun hk => ?_, fun hk hn => ?_⟩
  · rw [issueCrypt_of_noKey op hk]
    exact congrArg _ (complete_of_idle _ hb)
  · have hl : lrEnsure config s.len.toNat s.regmap = false := Bool.and_eq_false_iff.2 hn
    rw [issueCrypt_of_unregistered op hk hl]
    exact congrArg _ (complete_of_idle _ hb)

/-- The message operand: the first `LEN` bits of `DINBITS` (R73, R207). -/
def messageIn (C : Config) (s : State) : Bits := (dinBits C s).take s.len.toNat

theorem messageIn_length {C : Config} {s : State} (hv : psValid C s.len.toNat = true) : (messageIn C s).length = s.len.toNat := by
  obtain ⟨-, -, hmax⟩ := (psValid_iff C _).1 hv
  simp [messageIn, dinBits_length, hmax]

/-- The latched message, its missing bits zero, is as long as `W` (R35, R207). -/
theorem latched_length {C : Config} {s : State} (hv : psValid C s.len.toNat = true) :
    (messageIn C s ++ zeros (C.nmax - s.len.toNat)).length = C.nmax := by
  obtain ⟨-, -, hmax⟩ := (psValid_iff C _).1 hv
  rw [List.length_append, messageIn_length hv, zeros_length]
  omega

theorem getD_append_zeros (X : Bits) (L i : Nat) : (X ++ zeros L).getD i false = X.getD i false := by
  by_cases h : i < X.length
  · rw [List.getD_append _ _ _ _ h]
  · rw [List.getD_append_right _ _ _ _ (by omega), getD_zeros, List.getD_eq_default _ _ (by omega)]

/-- Bit `j` of the message operand is bit `31 - j mod 32` of `DIN` word `j / 32` (R54, R73). -/
theorem messageIn_bit {C : Config} {s : State} (hv : psValid C s.len.toNat = true) (j : Nat) :
    (messageIn C s).getD j false = (decide (j < s.len.toNat) && (s.din.toList.getD (j / 32) 0).getLsbD (31 - j % 32)) := by
  obtain ⟨-, -, hmax⟩ := (psValid_iff C _).1 hv
  rw [messageIn, dinBits, List.take_take, Nat.min_eq_left hmax, getD_take, getD_wordsBits]

/-- Settles O21: a ready issue goes busy with the message operand latched. -/
theorem goingBusyLatchesTheOperands : Obligations.GoingBusyLatchesTheOperands := by
  unfold Obligations.GoingBusyLatchesTheOperands
  intro s hf hb hk hv hbit
  have hl : lrEnsure config s.len.toNat s.regmap = true := Bool.and_eq_true_iff.2 ⟨hv, hbit⟩
  have hexec (op : OpKind) : exec op.instr s = .next (goBusy config op (clearOutput s)) := by
    rw [exec_crypt_of_idle op hf hb, issueCrypt_of_ready op hk hl]
  exact ⟨_, latched_length hv, fun j => by rw [getD_append_zeros, messageIn_bit hv], hexec .enc, hexec .dec⟩

end Sys2Proof.Machine
end

section
/-! SUPPORT. Proofs about register reads and writes (R58 to R61, R212, R213). -/

namespace Sys2Proof.Machine

/-! ### Reads -/

theorem and_laneMask_bit (C : Config) (v : Word) (j b : Nat) :
    (v &&& laneMask C j).getLsbD b = (decide (4 * j + (31 - b) / 8 < C.nmax / 8) && v.getLsbD b) := by
  rw [BitVec.getLsbD_and, laneMask_bit]
  by_cases hb : b < 32
  · simp [hb, Bool.and_comm]
  · simp [BitVec.getLsbD_of_ge v b (Nat.le_of_not_lt hb)]

/-- The fields of `STATUS` at their places, the other bits 0 (R22 to R26). -/
theorem statusWord_fields (s : State) :
    (statusWord s).getLsbD 0 = s.busy ∧ (statusWord s).getLsbD 1 = s.keyValid ∧ (statusWord s).getLsbD 2 = s.doutValid ∧
      (statusWord s).extractLsb' 3 5 = 0 ∧ (statusWord s).extractLsb' 8 8 = s.result.value ∧
      (statusWord s).extractLsb' 16 16 = 0 := by
  unfold statusWord
  refine ⟨?_, ?_, ?_, ?_, ?_, ?_⟩
  · rw [BitVec.getLsbD_append]
    exact BitVec.getLsbD_ofBool ..
  · iterate 2 rw [BitVec.getLsbD_append]
    exact BitVec.getLsbD_ofBool ..
  · iterate 3 rw [BitVec.getLsbD_append]
    exact BitVec.getLsbD_ofBool ..
  · iterate 3 rw [BitVec.extractLsb'_append_eq_of_le (by omega)]
    exact BitVec.extractLsb'_append_eq_right
  · iterate 4 rw [BitVec.extractLsb'_append_eq_of_le (by omega)]
    exact BitVec.extractLsb'_append_eq_right
  · iterate 5 rw [BitVec.extractLsb'_append_eq_of_le (by omega)]
    exact BitVec.extractLsb'_eq_self

/-- The bits of `LEN` at their place, the upper half 0 (R28). -/
theorem lenWord_fields (n : BitVec 16) : (n.setWidth 32).extractLsb' 0 16 = n ∧ (n.setWidth 32).extractLsb' 16 16 = 0 := by
  refine ⟨BitVec.eq_of_getLsbD_eq fun i hi => ?_, BitVec.eq_of_getLsbD_eq fun i hi => ?_⟩
  · rw [BitVec.getLsbD_extractLsb', BitVec.getLsbD_setWidth]
    simp [hi, Nat.lt_trans hi]
  · rw [BitVec.getLsbD_extractLsb', BitVec.getLsbD_setWidth, BitVec.getLsbD_of_ge n _ (Nat.le_add_right 16 i)]
    simp

/-- Settles O23: a 32-bit read at the offset of a readable register returns its word, and the masks give its bits. -/
theorem readReturnsTheRegister : Obligations.ReadReturnsTheRegister := by
  unfold Obligations.ReadReturnsTheRegister
  intro s hf
  refine ⟨⟨_, exec_rd_register (r := .status) hf rfl, statusWord_fields s⟩,
    ⟨_, exec_rd_register (r := .len) hf rfl, lenWord_fields s.len⟩,
    ⟨_, exec_rd_register (r := .regmap) hf rfl, fun k => ?_⟩,
    fun j => exec_rd_register (r := .tweak j) hf rfl,
    fun j => ⟨_, exec_rd_register (r := .din j) hf rfl, and_laneMask_bit config s.din[j] j.val⟩,
    fun j => ⟨_, exec_rd_register (r := .dout j) hf rfl, and_laneMask_bit config s.dout[j] j.val⟩⟩
  rw [readReg, BitVec.getLsbD_and, regmapMask_bit, Bool.and_comm]

/-! ### Writes -/

/-- Settles O24: a 32-bit write at the offset of a storing register stores its word, and at offset 0 it is a command word. -/
theorem writeStoresTheRegister : Obligations.WriteStoresTheRegister := by
  unfold Obligations.WriteStoresTheRegister
  intro s v hf
  refine ⟨(exec_decode ⟨.write, 0x00, 4, v⟩ s).symm, ?_,
    fun j => exec_wr_register (r := .keyin j) hf rfl nofun,
    fun j => exec_wr_register (r := .tweak j) hf rfl nofun,
    fun j => ⟨_, exec_wr_register (r := .din j) hf rfl nofun, and_laneMask_bit config v j.val⟩⟩
  rw [← BitVec.setWidth_eq_extractLsb' (by omega)]
  exact exec_wr_register (r := .len) hf rfl nofun

end Sys2Proof.Machine
end

section
/-! SUPPORT. Proofs about a command in progress: its rounds beside the host's stores (R61, R266), and its run to the end (R183, R184, R208 to
R211, R214). -/

namespace Sys2Proof.Machine

/-! ### A round of a command in progress -/

/-- What a round needs: a command in progress, a whole work buffer, a valid latched length, and an index of one of its rounds. -/
structure InProgress (C : Config) (s : State) : Prop where
  busy : s.busy = true
  work : s.W.length = C.nmax
  valid : psValid C s.NL.toNat = true
  round : s.I.toNat < psRounds C s.NL.toNat

theorem inProgress_of_inv {C : Config} {s : State} (hi : Inv C s) (hb : s.busy = true) : InProgress C s :=
  have ⟨_, hl, _⟩ := hi.busyReady hb
  ⟨hb, hi.workLength, psValid_of_lrEnsure hl, hi.busyRound hb⟩

/-- The result of the next round of the operation in progress. -/
def nextRound (C : Config) (s : State) : Dp Bits := feRound C s.OP s.key (s.W.take s.NL.toNat) s.TL

/-- The state after the next round: it ended the command by failing, or put its result in the work buffer and counted (R187, R188). -/
def afterRound (C : Config) (s : State) : State :=
  match nextRound C s with
  | .ok R => advance C s.OP { s with W := R ++ zeros (C.nmax - s.NL.toNat) }
  | .error _ => abort C .cipherBackendFailure s

theorem seqStep_of_inProgress {C : Config} {s : State} (h : InProgress C s) : seqStep C s.OP s = .ok (afterRound C s) := by
  unfold afterRound nextRound
  obtain ⟨hround, hstep⟩ | ⟨R, hround, -, hstep⟩ := seqStep_cases C h.busy rfl h.work h.valid
  · rw [hround, hstep]
  · rw [hround, hstep]

theorem exec_seqInstr_of_inProgress {s : State} (h : InProgress config s) (hf : s.fault = none) :
    exec (seqInstr s) s = .next (afterRound config s) :=
  (exec_seqInstr s).trans (perform_of_ok hf (seqStep_of_inProgress h))

/-! ### A round beside a store -/

section
variable (C : Config) (v : Word) (s : State) (r : Reg)

@[simp] theorem writeReg_busy : (writeReg C v s r).busy = s.busy := by cases r <;> rfl
@[simp] theorem writeReg_W : (writeReg C v s r).W = s.W := by cases r <;> rfl
@[simp] theorem writeReg_TL : (writeReg C v s r).TL = s.TL := by cases r <;> rfl
@[simp] theorem writeReg_NL : (writeReg C v s r).NL = s.NL := by cases r <;> rfl
@[simp] theorem writeReg_OP : (writeReg C v s r).OP = s.OP := by cases r <;> rfl
@[simp] theorem writeReg_I : (writeReg C v s r).I = s.I := by cases r <;> rfl
@[simp] theorem writeReg_key : (writeReg C v s r).key = s.key := (writeReg_keeps_key C v s r).2

theorem advance_writeReg (op : OpKind) : advance C op (writeReg C v s r) = writeReg C v (advance C op s) r := by
  cases op with
  | enc => simp only [advance, writeReg_I, writeReg_NL]; split <;> cases r <;> rfl
  | dec => simp only [advance, writeReg_I]; split <;> cases r <;> rfl

/-- A store and a round give the same state in either order: the round works on latched copies (R207). -/
theorem afterRound_writeReg : afterRound C (writeReg C v s r) = writeReg C v (afterRound C s) r := by
  simp only [afterRound, nextRound, writeReg_W, writeReg_TL, writeReg_NL, writeReg_OP, writeReg_key]
  split
  · rename_i R _
    rw [← advance_writeReg]
    congr 1
    cases r <;> rfl
  · cases r <;> rfl

theorem inProgress_writeReg {C : Config} {s : State} (h : InProgress C s) : InProgress C (writeReg C v s r) := by
  constructor <;> simp [h.busy, h.work, h.valid, h.round]

end

/-- Settles O30: a good busy state is in progress before and after the store, so either order performs the round and the store. -/
theorem operandWritesCommuteWithSequencerSteps : Obligations.OperandWritesCommuteWithSequencerSteps := by
  unfold Obligations.OperandWritesCommuteWithSequencerSteps
  intro s r v hi hf hb hr hc
  have hp := inProgress_of_inv hi hb
  have hround := exec_seqInstr_of_inProgress hp hf
  have hfault : (afterRound config s).fault = none := seqInstr_fault hi hb hround
  have hstore := exec_wr_register (v := v) hf hr hc
  have hstore' := exec_wr_register (v := v) hfault hr hc
  have hround' := exec_seqInstr_of_inProgress (inProgress_writeReg v r hp) ((writeReg_fault ..).trans hf)
  simp only [hround, hstore, hstore', hround', afterRound_writeReg]

/-! ### The rounds of a command -/

section
variable {C : Config} {s : State}

/-- The state a command ends in, but for the counter: its message out, or its failure reported, and the round state wiped (R210, R211). -/
def commandEnd (C : Config) (s : State) : Dp Bits → State
  | .ok R => { s with
      W := zeros C.nmax, TL := 0, dout := bitsWords (R ++ zeros (C.nmax - s.NL.toNat)), doutValid := true, result := .ok, busy := false }
  | .error _ => abort C .cipherBackendFailure s

/-- The end overwrites the work buffer, and says nothing of the counter. -/
theorem commandEnd_set_W_I (C : Config) (s : State) (W : Bits) (i j : BitVec 8) (r : Dp Bits) :
    { commandEnd C { s with W := W, I := i } r with I := j } = { commandEnd C s r with I := j } := by
  cases r <;> rfl

/-- With one round left the counter is at its end, so the command finishes (R187, R188). -/
theorem advance_of_last {op : OpKind} (ho : s.OP = op) (hv : psValid C s.NL.toNat = true) (hl : roundsLeft C s = 1) :
    ∃ i, advance C op s = finish C { s with I := i } := by
  obtain ⟨-, hmax⟩ := psRounds_bounds hv
  cases op with
  | enc =>
    have hlast : (s.I + 1).toNat = psRounds C s.NL.toNat := by
      simp only [roundsLeft, ho] at hl
      bv_omega
    exact ⟨s.I + 1, by simp only [advance, if_pos hlast]⟩
  | dec =>
    have hlast : s.I = 0 := by
      simp only [roundsLeft, ho] at hl
      bv_omega
    exact ⟨s.I, by simp only [advance, if_pos hlast]⟩

/-- With more rounds left the command goes on with one round less (R187, R188). -/
theorem advance_of_more {op : OpKind} {k : Nat} (ho : s.OP = op) (hv : psValid C s.NL.toNat = true)
    (hround : s.I.toNat < psRounds C s.NL.toNat) (hl : roundsLeft C s = k + 2) :
    ∃ i, advance C op s = { s with I := i } ∧ i.toNat < psRounds C s.NL.toNat ∧ roundsLeft C { s with I := i } = k + 1 := by
  obtain ⟨-, hmax⟩ := psRounds_bounds hv
  cases op with
  | enc =>
    simp only [roundsLeft, ho] at hl ⊢
    have hI : (s.I + 1).toNat = s.I.toNat + 1 := by bv_omega
    have hmore : (s.I + 1).toNat ≠ psRounds C s.NL.toNat := by omega
    exact ⟨s.I + 1, by simp only [advance, if_neg hmore, ho], by omega, by omega⟩
  | dec =>
    simp only [roundsLeft, ho] at hl ⊢
    have hI : (s.I - 1).toNat = s.I.toNat - 1 := by bv_omega
    have hmore : s.I ≠ 0 := by bv_omega
    exact ⟨s.I - 1, by simp only [advance, if_neg hmore, ho], by omega, by omega⟩

theorem nextRound_length {R : Bits} (h : InProgress C s) (hR : nextRound C s = .ok R) : R.length = s.NL.toNat := by
  obtain ⟨-, -, hmax⟩ := (psValid_iff C _).1 h.valid
  have hmsg : (s.W.take s.NL.toNat).length = s.NL.toNat := by simp [h.work, hmax]
  exact (feRound_length (by rw [hmsg]; exact h.valid) hR).trans hmsg

/-- The state after the last round, which sends its result out (R210). -/
theorem afterRound_of_last {R : Bits} (h : InProgress C s) (hR : nextRound C s = .ok R) (hl : roundsLeft C s = 1) :
    ∃ i, afterRound C s = { commandEnd C s (.ok R) with I := i } := by
  have hlen := nextRound_length h hR
  obtain ⟨i, hend⟩ := advance_of_last (s := { s with W := R ++ zeros (C.nmax - s.NL.toNat) }) rfl h.valid hl
  rw [afterRound, hR]
  exact ⟨i, hend.trans (finish_roundDone C (s := { s with I := i }) hlen)⟩

/-- The state after a round that is not the last: in progress with one round less, on that round's result. -/
theorem afterRound_of_more {R : Bits} {k : Nat} (h : InProgress C s) (hR : nextRound C s = .ok R) (hl : roundsLeft C s = k + 2) :
    ∃ i, afterRound C s = { s with W := R ++ zeros (C.nmax - s.NL.toNat), I := i } ∧ InProgress C (afterRound C s) ∧
      roundsLeft C (afterRound C s) = k + 1 := by
  obtain ⟨-, -, hmax⟩ := (psValid_iff C _).1 h.valid
  obtain ⟨i, hgo, hround, hleft⟩ :=
    advance_of_more (s := { s with W := R ++ zeros (C.nmax - s.NL.toNat) }) rfl h.valid h.round hl
  have hafter : afterRound C s = { s with W := R ++ zeros (C.nmax - s.NL.toNat), I := i } := by
    rw [afterRound, hR]
    exact hgo
  have hwork : (R ++ zeros (C.nmax - s.NL.toNat)).length = C.nmax := by
    rw [List.length_append, nextRound_length h hR, zeros_length]
    omega
  refine ⟨i, hafter, ?_, ?_⟩ <;> rw [hafter]
  · exact ⟨h.busy, hwork, h.valid, hround⟩
  · exact hleft

end

/-! ### The run of a command -/

theorem step_of_no_event {s : State} (hp : s.port = []) : step s = turnEvent s := by
  simp only [step, hp]

theorem run_of_idle {s : State} (hf : s.fault = none) (hb : s.busy = false) (hp : s.port = []) :
    ∀ n, Host.Core.run core n s = .next s
  | 0 => rfl
  | n + 1 => by
    have hstep : step s = .next s := by simp [step_of_no_event hp, turnEvent, hf, hb]
    rw [run_succ_of_step n hstep, run_of_idle hf hb hp n]

theorem step_of_inProgress {s : State} (h : InProgress config s) (hf : s.fault = none) (hp : s.port = []) :
    step s = .next (afterRound config s) := by
  simp only [step_of_no_event hp, turnEvent, hf, h.busy, if_true, exec_seqInstr_of_inProgress h hf]

/-- What is left of a command, from the message in its work buffer (R183, R184). -/
def roundsResult (C : Config) (k : Nat) (s : State) : Dp Bits := feRounds C s.OP s.key s.TL k (s.W.take s.NL.toNat)

theorem roundsResult_of_error {C : Config} {s : State} {e : Stop} (k : Nat) (h : nextRound C s = .error e) :
    roundsResult C (k + 1) s = .error e := by
  unfold nextRound at h
  rw [roundsResult, feRounds, h]

theorem roundsResult_of_ok {C : Config} {s : State} {R : Bits} (k : Nat) (h : nextRound C s = .ok R) :
    roundsResult C (k + 1) s = feRounds C s.OP s.key s.TL k R := by
  unfold nextRound at h
  rw [roundsResult, feRounds, h]

/-- A round that fails ends the command at once, and the turns it had left do nothing (R211). -/
theorem run_of_failing_round {s : State} {e : Stop} (k : Nat) (h : InProgress config s) (hf : s.fault = none) (hp : s.port = [])
    (hR : nextRound config s = .error e) :
    ∃ i, Host.Core.run core (k + 1) s = .next { commandEnd config s (roundsResult config (k + 1) s) with I := i } := by
  have hafter : afterRound config s = abort config .cipherBackendFailure s := by rw [afterRound, hR]
  rw [run_succ_of_step k (step_of_inProgress h hf hp), hafter, roundsResult_of_error k hR]
  exact ⟨s.I, run_of_idle (s := abort config .cipherBackendFailure s) hf rfl hp k⟩

/-- Left to the sequencer, a command in progress ends after the rounds it has left, with their result: by induction on these rounds, a
failing one ending it at once, the last one sending its message out. -/
theorem run_of_inProgress (k : Nat) : ∀ {s : State}, InProgress config s → s.fault = none → s.port = [] →
    roundsLeft config s = k + 1 →
      ∃ i, Host.Core.run core (k + 1) s = .next { commandEnd config s (roundsResult config (k + 1) s) with I := i } := by
  induction k with
  | zero =>
    intro s h hf hp hl
    cases hR : nextRound config s with
    | error e => exact run_of_failing_round 0 h hf hp hR
    | ok R =>
      obtain ⟨i, hlast⟩ := afterRound_of_last h hR hl
      rw [run_succ_of_step 0 (step_of_inProgress h hf hp), hlast, roundsResult_of_ok 0 hR]
      exact ⟨i, rfl⟩
  | succ k ih =>
    intro s h hf hp hl
    cases hR : nextRound config s with
    | error e => exact run_of_failing_round (k + 1) h hf hp hR
    | ok R =>
      obtain ⟨i, hmore, hnext, hleft⟩ := afterRound_of_more h hR hl
      rw [run_succ_of_step (k + 1) (step_of_inProgress h hf hp), roundsResult_of_ok (k + 1) hR]
      obtain ⟨j, hrun⟩ := ih hnext (by rw [hmore]; exact hf) (by rw [hmore]; exact hp) hleft
      refine ⟨j, hrun.trans ?_⟩
      rw [hmore, commandEnd_set_W_I, roundsResult, List.take_left' (nextRound_length h hR)]

/-! ### From the command word to the end -/

/-- The state a ready issue leaves when no event is to come after it: its output cleared and the command in progress (R206, R207). -/
def issued (C : Config) (op : OpKind) (s : State) : State := goBusy C op (clearOutput { s with port := [] })

section
variable {C : Config} {s : State} (op : OpKind)

theorem inProgress_issued (hv : psValid C s.len.toNat = true) : InProgress C (issued C op s) :=
  ⟨rfl, latched_length hv, hv, firstRound_lt op hv⟩

/-- Nothing of a command is done at its issue: the counter starts at the first round (R38, R207). -/
theorem roundsLeft_issued (hv : psValid C s.len.toNat = true) : roundsLeft C (issued C op s) = psRounds C s.len.toNat := by
  obtain ⟨hmin, hmax⟩ := psRounds_bounds hv
  cases op with
  | enc => rfl
  | dec =>
    simp only [roundsLeft, issued, goBusy, clearOutput, firstRound, BitVec.toNat_ofNat]
    omega

/-- The rounds work on the latched message, key and tweak (R207). -/
theorem roundsResult_issued (k : Nat) (hv : psValid C s.len.toNat = true) :
    roundsResult C k (issued C op s) = feRounds C op s.key (tweakBlock s) k (messageIn C s) := by
  have hmsg : (issued C op s).W.take (issued C op s).NL.toNat = messageIn C s := List.take_left' (messageIn_length hv)
  rw [roundsResult, hmsg]
  rfl

end

/-- A ready state whose next event, and last, is the write of an operation's command word. -/
structure CommandNext (op : OpKind) (s : State) : Prop where
  noFault : s.fault = none
  idle : s.busy = false
  keyed : s.keyValid = true
  registered : lrEnsure config s.len.toNat s.regmap = true
  port : s.port = [hostWr .cmd op.word]

/-- The result of the command an operation would be: all its rounds on the message operand (R183, R184). -/
def commandResult (C : Config) (op : OpKind) (s : State) : Dp Bits :=
  feRounds C op s.key (tweakBlock s) (psRounds C (messageIn C s).length) (messageIn C s)

theorem commandResult_enc (C : Config) (s : State) :
    commandResult C .enc s = feEncrypt C s.key (tweakBlock s) ((dinBits C s).take s.len.toNat) := rfl

theorem commandResult_dec (C : Config) (s : State) :
    commandResult C .dec s = feDecrypt C s.key (tweakBlock s) ((dinBits C s).take s.len.toNat) := rfl

/-- The state a command with a given result leaves of an idle state with no later event (R207, R210, R211). -/
def afterCommand (C : Config) (op : OpKind) (i : BitVec 8) (s : State) : Dp Bits → State
  | .ok R => { s with
      port := [], W := zeros C.nmax, TL := 0, NL := s.len, OP := op, I := i,
      dout := bitsWords (R ++ zeros (C.nmax - s.len.toNat)), doutValid := true, result := .ok }
  | .error _ => { s with
      port := [], W := zeros C.nmax, TL := 0, NL := s.len, OP := op, I := i,
      dout := Vector.replicate 8 0, doutValid := false, result := .cipherBackendFailure }

theorem commandEnd_issued {C : Config} {op : OpKind} {s : State} (hb : s.busy = false) (i : BitVec 8) (r : Dp Bits) :
    { commandEnd C (issued C op s) r with I := i } = afterCommand C op i s r := by
  cases r <;> (rw [afterCommand, hb]; rfl)

theorem step_of_command {op : OpKind} {s : State} (h : CommandNext op s) : step s = .next (issued config op s) := by
  have hs : s = { s with port := [hostWr .cmd op.word] } := by rw [← h.port]
  rw [hs, step_of_command_hostWr op.word [] h.noFault h.idle, dispatchWord_opWord]
  exact congrArg _ (issueCrypt_of_ready op h.keyed h.registered)

/-- The issue goes busy in one step, and the rounds from there end the command with the result of all of them. -/
theorem run_of_command {op : OpKind} {s : State} (h : CommandNext op s) :
    ∃ i, Host.Core.run core (1 + psRounds config s.len.toNat) s = .next (afterCommand config op i s (commandResult config op s)) := by
  have hv := psValid_of_lrEnsure h.registered
  have hresult : roundsResult config (psRounds config s.len.toNat) (issued config op s) = commandResult config op s := by
    rw [roundsResult_issued op _ hv, commandResult, messageIn_length hv]
  have hleft := roundsLeft_issued op hv
  obtain ⟨hmin, -⟩ := psRounds_bounds hv
  obtain ⟨k, hk⟩ := Nat.exists_eq_add_one.2 (Nat.zero_lt_of_lt hmin)
  rw [hk] at hresult hleft
  obtain ⟨i, hrun⟩ := run_of_inProgress k (inProgress_issued op hv) h.noFault rfl hleft
  refine ⟨i, ?_⟩
  rw [hk, Nat.add_comm, run_succ_of_step _ (step_of_command h), hrun, hresult, commandEnd_issued h.idle]

/-- Settles O58: after the issue the rounds of an ENC are FE_ENCRYPT's on the message operand. -/
theorem encCommandEncrypts : Obligations.EncCommandEncrypts := by
  unfold Obligations.EncCommandEncrypts
  intro s hf hb hk hl hp
  obtain ⟨i, hrun⟩ := run_of_command (op := .enc) ⟨hf, hb, hk, hl, hp⟩
  refine ⟨i, hrun.trans ?_⟩
  rw [← commandResult_enc]
  cases commandResult config .enc s <;> rfl

/-- Settles O59: after the issue the rounds of a DEC are FE_DECRYPT's on the message operand. -/
theorem decCommandDecrypts : Obligations.DecCommandDecrypts := by
  unfold Obligations.DecCommandDecrypts
  intro s hf hb hk hl hp
  obtain ⟨i, hrun⟩ := run_of_command (op := .dec) ⟨hf, hb, hk, hl, hp⟩
  refine ⟨i, hrun.trans ?_⟩
  rw [← commandResult_dec]
  cases commandResult config .dec s <;> rfl

/-- An output put into the message registers is the message operand again (R34, R54, R73). -/
theorem messageIn_of_output {C : Config} {s : State} {R : Bits} (hv : psValid C s.len.toNat = true) (hR : R.length = s.len.toNat)
    (hd : s.din = bitsWords (R ++ zeros (C.nmax - s.len.toNat))) : messageIn C s = R := by
  obtain ⟨-, -, hmax⟩ := (psValid_iff C _).1 hv
  obtain ⟨-, hbound, -⟩ := nmax_bounds C
  rw [messageIn, dinBits, List.take_take, Nat.min_eq_left hmax, hd,
    words_of_bits _ (by rw [List.length_append, hR, zeros_length]; omega), List.append_assoc, List.take_left' hR]

/-- The state whose output is put into the message registers and whose next event is the write of the DEC word (R214). -/
def decOfOutput (t : State) : State := { t with din := t.dout, port := [hostWr .cmd OpKind.dec.word] }

/-- After an ENC that ended OK, the DEC of its output has the message encrypted as its result: the message operand is the ENC's result, and
the reverse rounds take it back (R186). -/
theorem commandResult_decOfOutput {C : Config} {s : State} {R : Bits} (i : BitVec 8) (hv : psValid C s.len.toNat = true)
    (hR : commandResult C .enc s = .ok R) :
    commandResult C .dec (decOfOutput (afterCommand C .enc i s (.ok R))) = .ok (messageIn C s) := by
  have hmsg := messageIn_length hv
  obtain ⟨hround, -⟩ := sequencesRoundTrip C s.key (tweakBlock s) (messageIn C s) R (by rwa [hmsg])
  obtain ⟨hlen, hback⟩ := hround hR
  have hin : messageIn C (decOfOutput (afterCommand C .enc i s (.ok R))) = R := messageIn_of_output hv (hlen.trans hmsg) rfl
  rw [commandResult, hin]
  exact hback

/-- Settles O60: the ENC ended OK only with a result, and the DEC of that output is a ready command too. -/
theorem decOfEncGivesBackTheMessage : Obligations.DecOfEncGivesBackTheMessage := by
  unfold Obligations.DecOfEncGivesBackTheMessage
  intro s hf hb hk hl hp
  obtain ⟨i, henc⟩ := run_of_command (op := .enc) ⟨hf, hb, hk, hl, hp⟩
  refine ⟨_, henc, fun hok => ?_⟩
  cases hR : commandResult config .enc s with
  | error e => rw [hR] at hok; cases hok
  | ok R =>
    obtain ⟨j, hdec⟩ := run_of_command (op := .dec) (s := decOfOutput (afterCommand config .enc i s (.ok R))) ⟨hf, hb, hk, hl, rfl⟩
    rw [commandResult_decOfOutput i (psValid_of_lrEnsure hl) hR] at hdec
    exact ⟨_, hdec, rfl, rfl, rfl⟩

end Sys2Proof.Machine
end

section
/-! SUPPORT. Proofs about what a raised fault leaves unchanged (R232), and about what a read can show (R237, R241). -/

namespace Sys2Proof.Machine

/-! ### Raising a fault -/

/-- A sequencer step that happens leaves the fault mark alone: not enabled, aborted, or counted on. -/
theorem seqStep_fault {C : Config} {op : OpKind} {s t : State} (h : seqStep C op s = .ok t) : t.fault = s.fault := by
  obtain ⟨rfl, -⟩ | ⟨-, -, rfl | ⟨R, -, rfl⟩⟩ := seqStep_next h
  · rfl
  · exact abort_fault ..
  · exact advance_fault ..

/-- An instruction raises a fault and does nothing else, or leaves the fault mark alone (R232). -/
theorem exec_raises_or_keeps_fault {i : Instr} {s t : State} (h : exec i s = .next t) : (∃ f, t = raise f s) ∨ t.fault = s.fault := by
  obtain ⟨-, hraise | ⟨v, rfl⟩ | ⟨n, v, -, rfl⟩ | ⟨-, w, rfl, -⟩ | ⟨r, v, rfl⟩ | ⟨op, hseq, -⟩⟩ := exec_next h
  · exact .inl hraise
  · exact .inr rfl
  · exact .inr rfl
  · exact .inr (dispatchWord_fault ..)
  · exact .inr (writeReg_fault ..)
  · exact .inr (seqStep_fault hseq)

/-- Settles O9: the state before has no fault to keep, so the fault was raised, and the one raised is the one seen. -/
theorem faultIsRaisedBeforeAnyChange : Obligations.FaultIsRaisedBeforeAnyChange := by
  unfold Obligations.FaultIsRaisedBeforeAnyChange
  intro i s t f hf h ht
  obtain ⟨g, rfl⟩ | hkept := exec_raises_or_keeps_fault h
  · cases ht
    rfl
  · exact nomatch ht.symm.trans (hkept.trans hf)

/-! ### What a read shows -/

/-- The second state is the first but for the staged and the loaded key and the fields of a command in progress. -/
def EqUpToInternal (s t : State) : Prop :=
  t = { s with keyin := t.keyin, key := t.key, W := t.W, TL := t.TL, NL := t.NL, OP := t.OP, I := t.I }

section
variable {s t : State} (h : EqUpToInternal s t)
include h

theorem EqUpToInternal.fault_eq : t.fault = s.fault := (congrArg State.fault h).trans rfl

theorem EqUpToInternal.ret_eq : t.ret = s.ret := (congrArg State.ret h).trans rfl

/-- No register reads as anything of the internal fields (R58, R241). -/
theorem EqUpToInternal.readReg_eq (C : Config) (r : Reg) : readReg C t r = readReg C s r :=
  (congrArg (readReg C · r) h).trans (by cases r <;> rfl)

end

/-- Settles O28: both reads reach the same register and return its word, or both raise the same bus error. -/
theorem readsDoNotShowInternalState : Obligations.ReadsDoNotShowInternalState := by
  unfold Obligations.ReadsDoNotShowInternalState
  intro s t off size s' ht hread
  have hst : EqUpToInternal s t := ht
  obtain ⟨hf, -⟩ := exec_next hread
  have hft : t.fault = none := hst.fault_eq.trans hf
  cases ha : accessed .read off size with
  | ok r =>
    obtain ⟨rfl, -, hr, hallows⟩ := accessed_ok ha
    obtain rfl := offset_of_regAt hr
    cases hread.symm.trans (exec_rd_register hf hallows)
    exact ⟨_, exec_rd_register hft hallows, by rw [hst.readReg_eq], hst.fault_eq⟩
  | error f =>
    have hreach (r : Reg) : accessed .read off size ≠ .ok r := fun hok => nomatch ha.symm.trans hok
    cases hread.symm.trans (exec_rd_busError hf hreach)
    exact ⟨_, exec_rd_busError hft hreach, hst.ret_eq, rfl⟩

end Sys2Proof.Machine
end

section
/-! SUPPORT. Proofs about the progress of a busy command left to the sequencer (R187 to R189, R268). -/

namespace Sys2Proof.Machine

/-! ### The rounds left -/

/-- A command in progress has a round to perform, and at most all its rounds (R38, R189). -/
theorem roundsLeft_bounds {C : Config} {s : State} (h : InProgress C s) :
    0 < roundsLeft C s ∧ roundsLeft C s ≤ psRounds C s.NL.toNat := by
  have hround := h.round
  unfold roundsLeft
  cases s.OP with
  | enc => exact ⟨Nat.sub_pos_of_lt hround, Nat.sub_le ..⟩
  | dec => exact ⟨Nat.succ_pos _, hround⟩

/-! ### The end of a command and the way to it -/

/-- A command ends with OK and its output, or with CIPHER_BACKEND_FAILURE and none, since a good busy state has none (R43, R210, R211). -/
theorem commandEnd_output {C : Config} {s : State} (hi : Inv C s) (hb : s.busy = true) (r : Dp Bits) :
    ((commandEnd C s r).result = .ok ∧ (commandEnd C s r).doutValid = true) ∨
      ((commandEnd C s r).result = .cipherBackendFailure ∧ (commandEnd C s r).doutValid = false ∧
        (commandEnd C s r).dout = Vector.replicate 8 0) := by
  obtain ⟨-, -, hout⟩ := hi.busyReady hb
  cases r with
  | ok R => exact .inl ⟨rfl, rfl⟩
  | error e => exact .inr ⟨rfl, hout, hi.invalidOutputZero hout⟩

theorem commandEnd_busy (C : Config) (s : State) (r : Dp Bits) : (commandEnd C s r).busy = false := by cases r <;> rfl

theorem commandEnd_fault (C : Config) (s : State) (r : Dp Bits) : (commandEnd C s r).fault = s.fault := by cases r <;> rfl

/-- Before its last round a command is in progress, unless a round failed: by induction on the rounds performed. -/
theorem run_before_end (k : Nat) : ∀ {s : State}, InProgress config s → s.fault = none → s.port = [] → k < roundsLeft config s →
    ∃ u, Host.Core.run core k s = .next u ∧ (u.busy = true ∨ u.result = .cipherBackendFailure) := by
  induction k with
  | zero => exact fun h _ _ _ => ⟨_, rfl, .inl h.busy⟩
  | succ k ih =>
    intro s h hf hp hk
    cases hR : nextRound config s with
    | error e =>
      obtain ⟨i, hrun⟩ := run_of_failing_round k h hf hp hR
      rw [roundsResult_of_error k hR] at hrun
      exact ⟨_, hrun, .inr rfl⟩
    | ok R =>
      obtain ⟨j, hj⟩ := Nat.exists_eq_add_of_le' (show 2 ≤ roundsLeft config s by omega)
      obtain ⟨i, hmore, hnext, hleft⟩ := afterRound_of_more h hR hj
      rw [run_succ_of_step k (step_of_inProgress h hf hp)]
      exact ih hnext (by rw [hmore]; exact hf) (by rw [hmore]; exact hp) (by omega)

/-- Settles O57: a good busy state is in progress, so its rounds left are bounded, running them ends the command, and running fewer
ends it only by a failing one. -/
theorem busyCommandEndsWithinItsRounds : Obligations.BusyCommandEndsWithinItsRounds := by
  unfold Obligations.BusyCommandEndsWithinItsRounds
  intro s hi hf hb hp
  have h := inProgress_of_inv hi hb
  obtain ⟨hpos, hmax⟩ := roundsLeft_bounds h
  refine ⟨hmax, ?_, fun k hk => run_before_end k h hf hp hk⟩
  obtain ⟨k, hk⟩ := Nat.exists_eq_add_one.2 hpos
  obtain ⟨i, hrun⟩ := run_of_inProgress k h hf hp hk
  rw [hk]
  exact ⟨_, hrun, commandEnd_busy .., (commandEnd_fault ..).trans hf, commandEnd_output hi hb _⟩

end Sys2Proof.Machine
end

section
/-! SUPPORT. Proofs that without a fault the machine always answers a next state: raising a fault is one too (R40, R232). -/

namespace Sys2Proof.Machine

theorem exec_completes {s : State} (i : Instr) (hf : s.fault = none) : ∃ t, exec i s = .next t := by
  obtain ⟨body, hbody⟩ := exec_eq_perform i s
  rw [hbody]
  exact perform_completes body hf

theorem turnEvent_completes {s : State} (hf : s.fault = none) : ∃ t, turnEvent s = .next t := by
  simp only [turnEvent, hf]
  split
  · exact exec_completes _ hf
  · exact ⟨s, rfl⟩

/-- By the next event: an access or a turn performs at most one instruction, and a reset needs nothing of the state. -/
theorem step_completes {s : State} (hf : s.fault = none) : ∃ t, step s = .next t := by
  match hp : s.port with
  | [] =>
    rw [step_of_no_event hp]
    exact turnEvent_completes hf
  | .access a :: rest =>
    rw [step_of_access hp]
    exact exec_completes _ hf
  | .turn :: rest =>
    rw [step_of_turn (.inl hp)]
    exact turnEvent_completes hf
  | .reset :: rest => exact ⟨_, step_of_reset hp⟩

/-- Settles O10: a step is at most one instruction, and an instruction is a performed operation, which always answers a next state. -/
theorem noStepIsRefused : Obligations.NoStepIsRefused := by
  unfold Obligations.NoStepIsRefused
  intro s hf
  obtain ⟨t, ht⟩ := step_completes hf
  exact ⟨t, ht, fun i => exec_completes i hf⟩

end Sys2Proof.Machine
end
